-- ==== Sys2Proof/Word.lean ====
section
/-! DEFINITION. The word types of the hardware: bytes, 16-bit words, 12-bit addresses and register
numbers (spec/00_scope.md R8, R9, R11; spec/30_encoding.md R101). -/

namespace Sys2Proof

/-- `u8`, spec/00_scope.md R11: the width of V0..VF, of the timers and of a memory location (R8 `V_WIDTH`,
`TIMER_WIDTH`). -/
abbrev Byte := BitVec 8

/-- `u16`, spec/00_scope.md R11: the width of I, PC, the stack entries and the instruction word (R8). -/
abbrev Word := BitVec 16

/-- The 12-bit address field `nnn` of an instruction word (spec/00_scope.md R9, spec/30_encoding.md R101). -/
abbrev Addr12 := BitVec 12

/-- A register number 0..15 (spec/10_state.md R32). It is an index, never added or masked, so it is no bit
vector. -/
abbrev Reg := Fin 16

/-- VF, register 15 (spec/10_state.md R33). -/
abbrev regF : Reg := 15

end Sys2Proof
end

