-- ==== Sys2Proof/Machine/Flags.lean ====
section
/-! DEFINITION. The values written to VF as a flag (spec/42_alu.md R192, spec/44_display.md R244). Each is computed from
operands read before any write (spec/40_cycle.md R140). -/

namespace Sys2Proof.Machine

/-- A flag as VF holds it: 1 or 0. -/
def flagByte (c : Bool) : Byte := if c then 1 else 0

/-- ADD's carry: 1 iff the unbounded sum exceeds 255 (R186). -/
def carryFlag (a b : Byte) : Byte := flagByte (decide (a.toNat + b.toNat > 255))

/-- SUB's and SUBN's no-borrow: 1 iff the minuend is strictly greater (R187, R189). -/
def noBorrowFlag (a b : Byte) : Byte := flagByte (decide (a.toNat > b.toNat))

/-- SHR's flag: the bit shifted out, bit 0 (R188). -/
def shiftedOutLow (a : Byte) : Byte := flagByte (a.getLsbD 0)

/-- SHL's flag: the bit shifted out, bit 7 (R190). -/
def shiftedOutHigh (a : Byte) : Byte := flagByte (a.getLsbD 7)

end Sys2Proof.Machine
end

