-- ==== Sys2Proof/Config.lean ====
section
/-! DEFINITION. The implementation parameters of spec/00_scope.md R8: the sizes, the alternatives an open
parameter may take, and the one free value, the random draw. The values this hardware takes for the open
parameters (D5, D6, D8, D9) stand in Sys2Proof/Machine/Params.lean. -/

namespace Sys2Proof.Config

/-- `MEM_SIZE`, R8: 4096 addressable bytes, 0x000..0xFFF. -/
def memSize : Nat := 4096

/-- `STACK_DEPTH`, R8. -/
def stackDepth : Nat := 16

/-- `FB_W`, R8. -/
def fbWidth : Nat := 64

/-- `FB_H`, R8. -/
def fbHeight : Nat := 32

/-- `NUM_KEYS`, R8. -/
def numKeys : Nat := 16

/-- `PROG_START`, R8: the reset PC and the load offset. -/
def progStart : Nat := 0x200

/-- `FONT_BASE`, R8. -/
def fontBase : Nat := 0x050

/-- `FONT_GLYPH_BYTES`, R8. -/
def glyphBytes : Nat := 5

/-- `FONT_SIZE`, R8: 16 glyphs of 5 bytes. -/
def fontSize : Nat := 80

/-- `MAX_IMAGE`, R8: 4096 − 0x200. -/
def maxImage : Nat := 3584

/-- `UNKNOWN_OPCODE_POLICY`, R8 and spec/30_encoding.md R108: what an unmapped word does. -/
inductive UnknownOpcodePolicy where
  | nop
  | error
  deriving DecidableEq, Repr

/-- `DRAW_EDGE_POLICY`, R8 and spec/44_display.md R243: what happens to a sprite pixel past the edge. -/
inductive DrawEdgePolicy where
  | wrap
  | clip
  deriving DecidableEq, Repr

/-- `SHIFT_SOURCE`, R8 and spec/42_alu.md R188, R190: the register SHR and SHL shift. -/
inductive ShiftSource where
  | vx
  | vy
  deriving DecidableEq, Repr

/-- `RND`, R8 and spec/10_state.md R44: the byte that the k-th CXKK draws, when the host's `cycle`
transaction brings no draw of its own. A FREE VALUE: no body, so nothing can be proved of it (assumption 1). -/
opaque rndDraw : Nat → Byte

end Sys2Proof.Config
end

