-- ==== Sys2Proof/Syntax.lean ====
section
/-! DEFINITION. The instructions: one constructor per row of spec/opcode_table.json, which is the opcode map of
spec/30_encoding.md R106, in the table's order. Every field is unsigned and as wide as R101 makes it, and every
value of a field is legal (R102). -/

namespace Sys2Proof

inductive Instr where
  /-- 00E0, CLS: clear the screen (spec/44_display.md R240). -/
  | cls
  /-- 00EE, RET: return from subroutine (spec/41_control_flow.md R150). -/
  | ret
  /-- 1NNN, JP addr (R151). -/
  | jpAddr (nnn : Addr12)
  /-- 2NNN, CALL addr (R152). -/
  | callAddr (nnn : Addr12)
  /-- 3XKK, SE Vx, kk (R154). -/
  | seKk (x : Reg) (kk : Byte)
  /-- 4XKK, SNE Vx, kk (R155). -/
  | sneKk (x : Reg) (kk : Byte)
  /-- 5XY0, SE Vx, Vy (R156). -/
  | seReg (x y : Reg)
  /-- 6XKK, LD Vx, kk (spec/42_alu.md R180). -/
  | ldKk (x : Reg) (kk : Byte)
  /-- 7XKK, ADD Vx, kk (R181). -/
  | addKk (x : Reg) (kk : Byte)
  /-- 8XY0, LD Vx, Vy (R182). -/
  | ldReg (x y : Reg)
  /-- 8XY1, OR Vx, Vy (R183). -/
  | orReg (x y : Reg)
  /-- 8XY2, AND Vx, Vy (R184). -/
  | andReg (x y : Reg)
  /-- 8XY3, XOR Vx, Vy (R185). -/
  | xorReg (x y : Reg)
  /-- 8XY4, ADD Vx, Vy (R186). -/
  | addReg (x y : Reg)
  /-- 8XY5, SUB Vx, Vy (R187). -/
  | subReg (x y : Reg)
  /-- 8XY6, SHR Vx (R188); y is encoded, and read only under `SHIFT_SOURCE = VY`. -/
  | shr (x y : Reg)
  /-- 8XY7, SUBN Vx, Vy (R189). -/
  | subnReg (x y : Reg)
  /-- 8XYE, SHL Vx (R190); y as for SHR. -/
  | shl (x y : Reg)
  /-- 9XY0, SNE Vx, Vy (spec/41_control_flow.md R157). -/
  | sneReg (x y : Reg)
  /-- ANNN, LD I, addr (spec/43_index_memory.md R210). -/
  | ldI (nnn : Addr12)
  /-- BNNN, JP V0, addr (spec/41_control_flow.md R153). -/
  | jpV0 (nnn : Addr12)
  /-- CXKK, RND Vx, kk (spec/42_alu.md R191). -/
  | rnd (x : Reg) (kk : Byte)
  /-- DXYN, DRW Vx, Vy, n (spec/44_display.md R241). -/
  | drw (x y : Reg) (n : Fin 16)
  /-- EX9E, SKP Vx (spec/41_control_flow.md R158). -/
  | skp (x : Reg)
  /-- EXA1, SKNP Vx (R159). -/
  | sknp (x : Reg)
  /-- FX07, LD Vx, DT (spec/45_timers_keys.md R260). -/
  | ldVxDt (x : Reg)
  /-- FX0A, LD Vx, K (R261). -/
  | ldVxK (x : Reg)
  /-- FX15, LD DT, Vx (R262). -/
  | ldDtVx (x : Reg)
  /-- FX18, LD ST, Vx (R263). -/
  | ldStVx (x : Reg)
  /-- FX1E, ADD I, Vx (spec/43_index_memory.md R211). -/
  | addI (x : Reg)
  /-- FX29, LD F, Vx (R212). -/
  | ldF (x : Reg)
  /-- FX33, LD B, Vx (R213). -/
  | ldB (x : Reg)
  /-- FX55, LD [I], Vx (R214). -/
  | ldMemVx (x : Reg)
  /-- FX65, LD Vx, [I] (R215). -/
  | ldVxMem (x : Reg)
  deriving DecidableEq, Repr

end Sys2Proof
end

