-- ==== Sys2Proof/Decode.lean ====
section
/-! DEFINITION. Decoding (spec/30_encoding.md R103-R107), total on every word and on every list of bytes, and the
encoder (R113). -/

namespace Sys2Proof

/-! ## The fields of a word (R101) -/

/-- The nibble of `w` whose lowest bit is `lo`. -/
def nibbleAt (w : Word) (lo : Nat) : BitVec 4 := w.extractLsb' lo 4

/-- The register number in the nibble whose lowest bit is `lo`. -/
def regAt (w : Word) (lo : Nat) : Reg := (nibbleAt w lo).toFin

/-- `op`, w[15:12], the primary selector. -/
def fieldOp (w : Word) : BitVec 4 := nibbleAt w 12

/-- `x`, w[11:8]. -/
def fieldX (w : Word) : Reg := regAt w 8

/-- `y`, w[7:4]. -/
def fieldY (w : Word) : Reg := regAt w 4

/-- `n`, w[3:0], as the selector of families 0, 8 and E. -/
def fieldN (w : Word) : BitVec 4 := nibbleAt w 0

/-- `n`, w[3:0], as DXYN's count of rows. -/
def fieldCount (w : Word) : Fin 16 := regAt w 0

/-- `kk`, w[7:0]. -/
def fieldKk (w : Word) : Byte := w.extractLsb' 0 8

/-- `nnn`, w[11:0]. -/
def fieldNnn (w : Word) : Addr12 := w.extractLsb' 0 12

/-! ## The decoder -/

/-- Why the decoder gives no instruction. The four families name the sub-selector that R107 lists as unmapped;
`truncated` is a byte list shorter than one word, which no fetch yields (R100). -/
inductive Unmapped where
  | family0 (n : BitVec 4)
  | family8 (n : BitVec 4)
  | familyE (n : BitVec 4)
  | familyF (kk : Byte)
  | truncated
  deriving DecidableEq, Repr

/-- Second-level dispatch of family 0 on the low nibble only (R104). -/
def decode0 (w : Word) : Except Unmapped Instr :=
  if fieldN w = 0x0 then .ok .cls
  else if fieldN w = 0xE then .ok .ret
  else .error (.family0 (fieldN w))

/-- Second-level dispatch of family 8 on the low nibble (R104). -/
def decode8 (w : Word) : Except Unmapped Instr :=
  if fieldN w = 0x0 then .ok (.ldReg (fieldX w) (fieldY w))
  else if fieldN w = 0x1 then .ok (.orReg (fieldX w) (fieldY w))
  else if fieldN w = 0x2 then .ok (.andReg (fieldX w) (fieldY w))
  else if fieldN w = 0x3 then .ok (.xorReg (fieldX w) (fieldY w))
  else if fieldN w = 0x4 then .ok (.addReg (fieldX w) (fieldY w))
  else if fieldN w = 0x5 then .ok (.subReg (fieldX w) (fieldY w))
  else if fieldN w = 0x6 then .ok (.shr (fieldX w) (fieldY w))
  else if fieldN w = 0x7 then .ok (.subnReg (fieldX w) (fieldY w))
  else if fieldN w = 0xE then .ok (.shl (fieldX w) (fieldY w))
  else .error (.family8 (fieldN w))

/-- Second-level dispatch of family E on the low nibble only (R104): w[7:4] is not examined. -/
def decodeE (w : Word) : Except Unmapped Instr :=
  if fieldN w = 0xE then .ok (.skp (fieldX w))
  else if fieldN w = 0x1 then .ok (.sknp (fieldX w))
  else .error (.familyE (fieldN w))

/-- Second-level dispatch of family F on the low byte (R104). -/
def decodeF (w : Word) : Except Unmapped Instr :=
  if fieldKk w = 0x07 then .ok (.ldVxDt (fieldX w))
  else if fieldKk w = 0x0A then .ok (.ldVxK (fieldX w))
  else if fieldKk w = 0x15 then .ok (.ldDtVx (fieldX w))
  else if fieldKk w = 0x18 then .ok (.ldStVx (fieldX w))
  else if fieldKk w = 0x1E then .ok (.addI (fieldX w))
  else if fieldKk w = 0x29 then .ok (.ldF (fieldX w))
  else if fieldKk w = 0x33 then .ok (.ldB (fieldX w))
  else if fieldKk w = 0x55 then .ok (.ldMemVx (fieldX w))
  else if fieldKk w = 0x65 then .ok (.ldVxMem (fieldX w))
  else .error (.familyF (fieldKk w))

/-- The first-level table: one entry for each value of the primary selector (R103). The `n` of 5XYN and 9XYN is
not examined (R105). -/
def decode (w : Word) : Except Unmapped Instr :=
  if fieldOp w = 0x0 then decode0 w
  else if fieldOp w = 0x1 then .ok (.jpAddr (fieldNnn w))
  else if fieldOp w = 0x2 then .ok (.callAddr (fieldNnn w))
  else if fieldOp w = 0x3 then .ok (.seKk (fieldX w) (fieldKk w))
  else if fieldOp w = 0x4 then .ok (.sneKk (fieldX w) (fieldKk w))
  else if fieldOp w = 0x5 then .ok (.seReg (fieldX w) (fieldY w))
  else if fieldOp w = 0x6 then .ok (.ldKk (fieldX w) (fieldKk w))
  else if fieldOp w = 0x7 then .ok (.addKk (fieldX w) (fieldKk w))
  else if fieldOp w = 0x8 then decode8 w
  else if fieldOp w = 0x9 then .ok (.sneReg (fieldX w) (fieldY w))
  else if fieldOp w = 0xA then .ok (.ldI (fieldNnn w))
  else if fieldOp w = 0xB then .ok (.jpV0 (fieldNnn w))
  else if fieldOp w = 0xC then .ok (.rnd (fieldX w) (fieldKk w))
  else if fieldOp w = 0xD then .ok (.drw (fieldX w) (fieldY w) (fieldCount w))
  else if fieldOp w = 0xE then decodeE w
  else decodeF w

/-- The word of two bytes, the first at the lower address: big-endian (spec/20_memory.md R75). -/
def wordOfBytes (hi lo : Byte) : Word := hi ++ lo

/-- The byte of `w` that lies at the lower address. -/
def highByte (w : Word) : Byte := w.extractLsb' 8 8

/-- The byte of `w` that lies at the higher address. -/
def lowByte (w : Word) : Byte := w.extractLsb' 0 8

/-- The two bytes of a word in address order. -/
def bytesOfWord (w : Word) : List Byte := [highByte w, lowByte w]

/-- Decoding from the front of a byte list: the instruction and the bytes after it. Every instruction is two bytes
(R100). -/
def decodeBytes (bs : List Byte) : Except Unmapped (Instr × List Byte) :=
  match bs with
  | hi :: lo :: rest =>
    match decode (wordOfBytes hi lo) with
    | .ok i => .ok (i, rest)
    | .error e => .error e
  | _ => .error .truncated

/-- The word that the opcode table's bit numbers give: bit 0 is the word's least significant bit, and bits at or above
`nbits` are 0. -/
def tableWord (nbits w : Nat) : Word := BitVec.ofNat 16 (w % 2 ^ nbits)

/-- What the decoder reads from the instruction whose bits are `w`, laid out in memory as R75 has it. -/
def decodeTableWord (nbits w : Nat) : Option Instr :=
  match decodeBytes (bytesOfWord (tableWord nbits w)) with
  | .ok (i, _) => some i
  | .error _ => none

/-! ## The encoder -/

/-- The four nibbles of a word, most significant first. -/
def ofNibbles (a b c d : BitVec 4) : Word := a ++ b ++ c ++ d

/-- The nibble of a register number or a row count. -/
def nibble (r : Fin 16) : BitVec 4 := BitVec.ofFin r

/-- Selector and `nnn` (R113). -/
def encodeNnn (op : BitVec 4) (nnn : Addr12) : Word := op ++ nnn

/-- Selector, `x` and `kk` (R113). -/
def encodeXkk (op : BitVec 4) (x : Reg) (kk : Byte) : Word := op ++ nibble x ++ kk

/-- Selector, `x`, `y` and the low nibble (R113). -/
def encodeXyn (op : BitVec 4) (x y : Reg) (n : BitVec 4) : Word := ofNibbles op (nibble x) (nibble y) n

/-- The canonical word of an instruction: the selector digit, the fields, and the fixed digits of the source's
spelling in the positions the dispatch does not examine (R111, R113). -/
def encode (i : Instr) : Word :=
  match i with
  | .cls => 0x00E0
  | .ret => 0x00EE
  | .jpAddr nnn => encodeNnn 0x1 nnn
  | .callAddr nnn => encodeNnn 0x2 nnn
  | .seKk x kk => encodeXkk 0x3 x kk
  | .sneKk x kk => encodeXkk 0x4 x kk
  | .seReg x y => encodeXyn 0x5 x y 0x0
  | .ldKk x kk => encodeXkk 0x6 x kk
  | .addKk x kk => encodeXkk 0x7 x kk
  | .ldReg x y => encodeXyn 0x8 x y 0x0
  | .orReg x y => encodeXyn 0x8 x y 0x1
  | .andReg x y => encodeXyn 0x8 x y 0x2
  | .xorReg x y => encodeXyn 0x8 x y 0x3
  | .addReg x y => encodeXyn 0x8 x y 0x4
  | .subReg x y => encodeXyn 0x8 x y 0x5
  | .shr x y => encodeXyn 0x8 x y 0x6
  | .subnReg x y => encodeXyn 0x8 x y 0x7
  | .shl x y => encodeXyn 0x8 x y 0xE
  | .sneReg x y => encodeXyn 0x9 x y 0x0
  | .ldI nnn => encodeNnn 0xA nnn
  | .jpV0 nnn => encodeNnn 0xB nnn
  | .rnd x kk => encodeXkk 0xC x kk
  | .drw x y n => encodeXyn 0xD x y (nibble n)
  | .skp x => encodeXkk 0xE x 0x9E
  | .sknp x => encodeXkk 0xE x 0xA1
  | .ldVxDt x => encodeXkk 0xF x 0x07
  | .ldVxK x => encodeXkk 0xF x 0x0A
  | .ldDtVx x => encodeXkk 0xF x 0x15
  | .ldStVx x => encodeXkk 0xF x 0x18
  | .addI x => encodeXkk 0xF x 0x1E
  | .ldF x => encodeXkk 0xF x 0x29
  | .ldB x => encodeXkk 0xF x 0x33
  | .ldMemVx x => encodeXkk 0xF x 0x55
  | .ldVxMem x => encodeXkk 0xF x 0x65

end Sys2Proof
end

