-- ==== Sys2Proof/Machine/Params.lean ====
section
/-! DEFINITION. The values this hardware takes for the open parameters of spec/00_scope.md R8, each a decision of
spec/92_eei_decisions.md. The meanings are written for every value of a parameter and take these. -/

namespace Sys2Proof.Machine

/-- `UNKNOWN_OPCODE_POLICY = NOP` (D5, spec/30_encoding.md R108). -/
def unknownOpcodePolicy : Config.UnknownOpcodePolicy := .nop

/-- `DRAW_EDGE_POLICY = WRAP` (D6, spec/44_display.md R243). -/
def drawEdgePolicy : Config.DrawEdgePolicy := .wrap

/-- `SHIFT_SOURCE = VX` (D9, spec/42_alu.md R188, R190). -/
def shiftSource : Config.ShiftSource := .vx

/-- `FONT` (D8): the 80 glyph bytes of spec/20_memory.md R73, five a digit, digits 0 to F. -/
def font : List Byte :=
  [0xF0, 0x90, 0x90, 0x90, 0xF0] ++ [0x20, 0x60, 0x20, 0x20, 0x70] ++
  [0xF0, 0x10, 0xF0, 0x80, 0xF0] ++ [0xF0, 0x10, 0xF0, 0x10, 0xF0] ++
  [0x90, 0x90, 0xF0, 0x10, 0x10] ++ [0xF0, 0x80, 0xF0, 0x10, 0xF0] ++
  [0xF0, 0x80, 0xF0, 0x90, 0xF0] ++ [0xF0, 0x10, 0x20, 0x40, 0x40] ++
  [0xF0, 0x90, 0xF0, 0x90, 0xF0] ++ [0xF0, 0x90, 0xF0, 0x10, 0xF0] ++
  [0xF0, 0x90, 0xF0, 0x90, 0x90] ++ [0xE0, 0x90, 0xE0, 0x90, 0xE0] ++
  [0xF0, 0x80, 0x80, 0x80, 0xF0] ++ [0xE0, 0x90, 0x90, 0x90, 0xE0] ++
  [0xF0, 0x80, 0xF0, 0x80, 0xF0] ++ [0xF0, 0x80, 0xF0, 0x80, 0x80]

end Sys2Proof.Machine
end

