-- ==== Sys2Proof/Machine/State.lean ====
section
/-! DEFINITION. The state of the machine (spec/10_state.md R30-R44), the errors a transaction reports
(spec/60_exceptions.md R280) and the state after reset (spec/70_reset_and_hazards.md R310). -/

namespace Sys2Proof.Machine

/-- Main memory `MEM` (spec/20_memory.md R70), as the cells that differ from the reset contents: (address, byte) pairs,
addresses strictly rising, no cell equal to what an unlisted address reads as (`Memory.wf`). -/
abbrev Memory := List Host.Cell

/-- The framebuffer `FB[y][x]`: 32 rows of 64 pixels, `true` for lit (R41, spec/00_scope.md R12). -/
abbrev Framebuffer := Vector (Vector Bool 64) 32

/-- The space that a MemoryBoundsError names (spec/60_exceptions.md R280). -/
inductive Space where
  | mem
  | keypad
  deriving DecidableEq, Repr

/-- The declared errors (spec/60_exceptions.md R280, R286). No error records anything in the state: the transaction
that fails reports it and changes nothing (R289, spec/40_cycle.md R137). Each is the error the spec itself names, so
each is safe. -/
inductive Fault where
  /-- Code 1, raised by the `load` port for an image of more than 3584 bytes (R281). Never by a step. Safe. -/
  | loadError (len : Nat)
  /-- Code 2, raised by CALL with SP = 16 (R282). Safe. -/
  | stackOverflow (pc0 : Word)
  /-- Code 3, raised by RET with SP = 0 (R283). Safe. -/
  | stackUnderflow (pc0 : Word)
  /-- Code 4, raised by the fetch, DXYN, FX33, FX55 and FX65 (space `mem`) and by EX9E and EXA1 (space `keypad`)
  (R284); `addr` is the lowest address outside the bound, or the key index (R286). Safe. -/
  | memoryBounds (pc0 : Word) (space : Space) (addr : Nat)
  /-- Code 5, raised by an unmapped word under `UNKNOWN_OPCODE_POLICY = ERROR` only (R285), so never on this
  hardware. Safe. -/
  | unknownOpcode (pc0 : Word) (w : Word)
  deriving DecidableEq, Repr

/-- Reasons to give no meaning. -/
inductive Refusal where
  /-- The instruction has no meaning in the model yet. Raised by an arm of `exec` alone; every arm of this model has a
  meaning, so no step raises it. Safe. -/
  | notModelled (mnemonic : String)
  deriving DecidableEq, Repr

/-- The architectural state, exactly the list of spec/10_state.md R30, and after it two fields of the model's own for
the random draw (R44). -/
structure State where
  /-- V0..VF (R32). -/
  v : Vector Byte 16
  /-- The index register I (R37). -/
  i : Word
  /-- PC (R35): between cycles the address of the next instruction; while a handler runs, that plus 2. -/
  pc : Word
  /-- The return stack (R38). -/
  stack : Vector Word 16
  /-- SP, 0..16: how many stack entries are in use (R39). -/
  sp : Fin 17
  /-- The delay timer (R40). -/
  dt : Byte
  /-- The sound timer (R40). -/
  st : Byte
  /-- Main memory (spec/20_memory.md R70). -/
  mem : Memory
  /-- The framebuffer (R41). -/
  fb : Framebuffer
  /-- The keypad, `true` for pressed (R42). -/
  key : Vector Bool 16
  /-- The model's own: the draw that the `cycle(rnd)` transaction in progress brings (R50), if it brings one. -/
  rndIn : Option Byte
  /-- The model's own: how many draws CXKK has taken, the index of the next free draw (assumption 1). -/
  draws : Nat
  deriving DecidableEq, Repr

/-- The state after `reset` (spec/70_reset_and_hazards.md R310): everything 0 but PC = 0x200 and the font. Memory lists
nothing because an unlisted address reads as its reset contents, the font included (`Memory.resetByte`). The
values of `rndIn` and `draws` are the model's (assumption 1). -/
def State.reset : State where
  v := Vector.replicate 16 0
  i := 0
  pc := 0x200
  stack := Vector.replicate 16 0
  sp := 0
  dt := 0
  st := 0
  mem := []
  fb := Vector.replicate 32 (Vector.replicate 64 false)
  key := Vector.replicate 16 false
  rndIn := none
  draws := 0

end Sys2Proof.Machine
end

