-- ==== Sys2Proof/Machine/Memory.lean ====
section
/-! DEFINITION. Main memory as sparse data: what an unlisted address reads as, reading and writing one byte or a run of
bytes, and the canonical form. These are total; the bound of spec/20_memory.md R78 is checked by their callers
(Sys2Proof/Machine/Ops.lean). -/

namespace Sys2Proof.Machine

/-- What memory holds at `a` right after reset (spec/70_reset_and_hazards.md R310, spec/20_memory.md R72): the font at
[0x050, 0x0A0), 0 elsewhere. It is what an address that the list does not hold reads as. -/
def Memory.resetByte (a : Nat) : Byte :=
  if Config.fontBase ≤ a ∧ a < Config.fontBase + Config.fontSize then font.getD (a - Config.fontBase) 0 else 0

/-- The byte at `a`. -/
def Memory.read (m : Memory) (a : Nat) : Byte :=
  match m with
  | [] => Memory.resetByte a
  | (b, x) :: rest => if b = a then x else Memory.read rest a

/-- `m` with the cell of `a` listed in its place, or taken out where `x` is what an unlisted `a` reads as. -/
def Memory.write (m : Memory) (a : Nat) (x : Byte) : Memory :=
  match m with
  | [] => if x = Memory.resetByte a then [] else [(a, x)]
  | (b, y) :: rest =>
    if b < a then (b, y) :: Memory.write rest a x
    else
      let above := if b = a then rest else (b, y) :: rest
      if x = Memory.resetByte a then above else (a, x) :: above

/-- The bytes `xs` written from `a` upward, in ascending address order (spec/20_memory.md R85). -/
def Memory.writeBytes (m : Memory) (a : Nat) (xs : List Byte) : Memory :=
  match xs with
  | [] => m
  | x :: rest => Memory.writeBytes (m.write a x) (a + 1) rest

/-- The `n` bytes from `a` upward, in ascending address order. -/
def Memory.readBytes (m : Memory) (a n : Nat) : List Byte :=
  match n with
  | 0 => []
  | k + 1 => m.read a :: Memory.readBytes m (a + 1) k

/-- The canonical form from `lo` up: addresses strictly rising, inside the 4096 bytes of memory, and no cell equal to
what an unlisted address reads as. -/
def Memory.wfFrom (lo : Nat) (m : Memory) : Bool :=
  match m with
  | [] => true
  | (a, x) :: rest =>
    decide (lo ≤ a) && decide (a < Config.memSize) && decide (x ≠ Memory.resetByte a) && Memory.wfFrom (a + 1) rest

/-- The canonical form, so that equal memories are equal lists. -/
def Memory.wf (m : Memory) : Bool := Memory.wfFrom 0 m

end Sys2Proof.Machine
end

