-- ==== Sys2Proof/Machine/Ops.lean ====
section
/-! DEFINITION. The named operations over the state that the meanings share: raising an error, the registers, PC, the
return stack, bounded memory access, the keypad, the framebuffer, the fetch, the timer tick and the end of a
cycle. -/

namespace Sys2Proof.Machine

/-- What a handler or a cycle answers. -/
abbrev Result := Host.Outcome State Fault Refusal

/-! ## Raising an error

This is the machine's only exception mechanism (spec/60_exceptions.md R289): no state is saved, there is no vector,
no handler address and no mode, and there is no return from it (R290). The transaction ends with the error and the
state it found. -/

/-- `raise E(info)` (spec/00_scope.md R14): the cycle ends with the error and no effect on any state. A fault carries no
state, so the state stays the one the cycle began with. -/
def raise (e : Fault) : Result := .fault e

/-- The address of the instruction whose handler runs, `pc0` of R280: PC has been advanced by 2 modulo 2^16 before the
handler (spec/40_cycle.md R132). -/
def State.pc0 (s : State) : Word := s.pc - 2

/-- The numeric code of an error (R280). -/
def Fault.code (e : Fault) : Nat :=
  match e with
  | .loadError _ => 1
  | .stackOverflow _ => 2
  | .stackUnderflow _ => 3
  | .memoryBounds _ _ _ => 4
  | .unknownOpcode _ _ => 5

/-! ## Registers -/

/-- `V[x]`. Every register is readable, none is hard-wired (spec/10_state.md R32). -/
def State.reg (s : State) (x : Reg) : Byte := s.v[x]

/-- `V[x] <- b`. -/
def State.setReg (s : State) (x : Reg) (b : Byte) : State := { s with v := s.v.set x b }

/-- A result in Vx and a flag in VF, the flag last (spec/40_cycle.md R140): with x = 0xF VF holds the flag. -/
def State.setRegFlag (s : State) (x : Reg) (b flag : Byte) : State := (s.setReg x b).setReg regF flag

/-- V0..Vx as a list, V0 first. -/
def State.regsUpTo (s : State) (x : Reg) : List Byte := s.v.toList.take (x.val + 1)

/-- V0..Vx taken from `m` at `a`, `a + 1`, …; the registers above Vx stay (spec/43_index_memory.md R215). -/
def loadRegs (v : Vector Byte 16) (m : Memory) (a : Nat) (x : Reg) : Vector Byte 16 :=
  Vector.ofFn fun r => if r ≤ x then m.read (a + r.val) else v[r]

/-- `I <- w`. -/
def State.setI (s : State) (w : Word) : State := { s with i := w }

/-- `PC <- w`. -/
def State.setPc (s : State) (w : Word) : State := { s with pc := w }

/-- PC + 2 modulo 2^16 (spec/40_cycle.md R132). -/
def State.advance (s : State) : State := { s with pc := s.pc + 2 }

/-- A conditional skip: PC + 2 modulo 2^16 where the condition holds (spec/41_control_flow.md R160). -/
def State.skipIf (s : State) (c : Bool) : State := if c then { s with pc := s.pc + 2 } else s

/-! ## The return stack -/

/-- CALL's push of the return address and jump; StackOverflowError when SP = 16 (spec/41_control_flow.md R152). -/
def call (target : Word) (s : State) : Result :=
  if h : s.sp.val < 16 then
    .next { s with stack := s.stack.set s.sp.val s.pc, sp := ⟨s.sp.val + 1, by omega⟩, pc := target }
  else raise (.stackOverflow s.pc0)

/-- RET's pop; the entry is not cleared; StackUnderflowError when SP = 0 (spec/41_control_flow.md R150). -/
def ret (s : State) : Result :=
  if h : 0 < s.sp.val then
    .next { s with sp := ⟨s.sp.val - 1, by omega⟩, pc := s.stack[s.sp.val - 1] }
  else raise (.stackUnderflow s.pc0)

/-! ## Bounded memory access -/

/-- Whether every address of [a, a + len) is inside memory. For len ≥ 1 it is the test `a + len - 1 < 4096` of
spec/43_index_memory.md R216; a window of no bytes is inside (spec/44_display.md R241). -/
def windowInside (a len : Nat) : Bool := decide (len = 0 ∨ a + len ≤ Config.memSize)

/-- `check_window(a, len)` before a handler's first write (R216): the handler's effect `k` where the window is inside,
MemoryBoundsError with the lowest address outside (spec/60_exceptions.md R286) where it is not. -/
def withWindow (a len : Nat) (s : State) (k : State) : Result :=
  if windowInside a len then .next k else raise (.memoryBounds s.pc0 .mem (max a Config.memSize))

/-- `MemRead(a, 1)` (spec/20_memory.md R79): the byte, or the address that is out of bounds. -/
def memRead (m : Memory) (a : Nat) : Except Nat Byte :=
  if a < Config.memSize then .ok (m.read a) else .error a

/-- `MemWrite(a, 1, v)` (R79). -/
def memWrite (m : Memory) (a : Nat) (x : Byte) : Except Nat Memory :=
  if a < Config.memSize then .ok (m.write a x) else .error a

/-- `MemRead(a, 2)` (R79), for the instruction fetch: big-endian, the lower address checked first. -/
def memRead2 (m : Memory) (a : Nat) : Except Nat Word :=
  match memRead m a with
  | .error b => .error b
  | .ok hi =>
    match memRead m (a + 1) with
    | .error b => .error b
    | .ok lo => .ok (wordOfBytes hi lo)

/-- The fetch of a cycle (spec/40_cycle.md R131), with `pc0` added to the error's info (spec/60_exceptions.md R286). -/
def fetch (s : State) : Except Fault Word :=
  match memRead2 s.mem s.pc.toNat with
  | .ok w => .ok w
  | .error a => .error (.memoryBounds s.pc .mem a)

/-! ## The keypad -/

/-- The key index check of EX9E and EXA1 (spec/41_control_flow.md R158, R159): the effect `k` on the key's state, or
MemoryBoundsError with space KEYPAD when the index is 16 or more. -/
def withKey (idx : Byte) (s : State) (k : Bool → State) : Result :=
  if h : idx.toNat < 16 then .next (k s.key[idx.toNat]) else raise (.memoryBounds s.pc0 .keypad idx.toNat)

/-- The least pressed key (spec/45_timers_keys.md R261). -/
def firstKey (key : Vector Bool 16) : Option (Fin 16) := (List.finRange 16).find? fun k => key[k]

/-! ## The framebuffer -/

/-- `FB[y][x]` (spec/00_scope.md R12). -/
def pixel (fb : Framebuffer) (x : Fin 64) (y : Fin 32) : Bool := fb[y][x]

/-- `FB[y][x] <- FB[y][x] ^ 1`. -/
def flipPixel (fb : Framebuffer) (x : Fin 64) (y : Fin 32) : Framebuffer := fb.set y (fb[y].set x (!fb[y][x]))

/-- Every pixel unlit. -/
def clearedFb : Framebuffer := Vector.replicate 32 (Vector.replicate 64 false)

/-! ## The random draw -/

/-- The draw of this cycle (spec/10_state.md R44): the one the host's `cycle(rnd)` brings, or else a free value. -/
def State.draw (s : State) : Byte := s.rndIn.getD (Config.rndDraw s.draws)

/-! ## The end of a cycle -/

/-- One timer's decrement, floor at 0 (spec/40_cycle.md R135). -/
def tickTimer (t : Byte) : Byte := if t = 0 then 0 else t - 1

/-- Steps (e) and (f) of the cycle (R130): both timers tick. The draw the transaction brought ends with it. -/
def endCycle (s : State) : State := { s with dt := tickTimer s.dt, st := tickTimer s.st, rndIn := none }

/-- The rest of the cycle after the handler: nothing where it raised (spec/40_cycle.md R137). -/
def finish (r : Result) : Result :=
  match r with
  | .next s => .next (endCycle s)
  | .fault e => .fault e
  | .refused x => .refused x

end Sys2Proof.Machine
end

