-- ==== Sys2Proof/Machine/Operands.lean ====
section
/-! DEFINITION. The operand values the instructions compute: addresses, the shifted operand, decimal digits, sprite
bits and the pixel a sprite bit falls on. Every operand is a plain unsigned value (spec/00_scope.md R11,
spec/30_encoding.md R102). -/

namespace Sys2Proof.Machine

/-- `zext_16(nnn)` (spec/30_encoding.md R102). -/
def addrOf (nnn : Addr12) : Word := nnn.setWidth 16

/-- `V[0] + nnn`, at most 0x10FE, so it does not wrap (spec/41_control_flow.md R153). -/
def offsetTarget (v0 : Byte) (nnn : Addr12) : Word := v0.setWidth 16 + nnn.setWidth 16

/-- `trunc_16(I + V[x])` (spec/43_index_memory.md R211). -/
def indexPlus (i : Word) (b : Byte) : Word := i + b.setWidth 16

/-- `0x050 + 5 * V[x]`, for every value of V[x] (spec/43_index_memory.md R212, D13). -/
def glyphAddress (b : Byte) : Word := BitVec.ofNat 16 (Config.fontBase + Config.glyphBytes * b.toNat)

/-- The register SHR and SHL shift (spec/42_alu.md R188, R190). -/
def shiftOperand (src : Config.ShiftSource) (x y : Reg) (s : State) : Byte :=
  match src with
  | .vx => s.reg x
  | .vy => s.reg y

/-- The hundreds, tens and ones of a byte (spec/43_index_memory.md R213). -/
def bcdDigits (b : Byte) : List Byte := [b / 100, (b / 10) % 10, b % 10]

/-- The base address that I holds, an unbounded natural (spec/20_memory.md R79, spec/43_index_memory.md R216). -/
def State.base (s : State) : Nat := s.i.toNat

/-- `pixel(r, b)` of a sprite row: bit 7 is the leftmost column (spec/44_display.md R242). -/
def spriteBit (row : Byte) (b : Nat) : Bool := row.getLsbD (7 - b)

/-- `xo = V[x] mod 64` (spec/44_display.md R243). -/
def originX (b : Byte) : Nat := b.toNat % 64

/-- `yo = V[y] mod 32` (R243, spec/90_conflicts.md C4). -/
def originY (b : Byte) : Nat := b.toNat % 32

/-- The framebuffer pixel that column `b` of row `r` of a sprite at (xo, yo) falls on, if it is drawn (R243). -/
def target (policy : Config.DrawEdgePolicy) (xo yo r b : Nat) : Option (Fin 64 × Fin 32) :=
  match policy with
  | .wrap => some (⟨(xo + b) % 64, by omega⟩, ⟨(yo + r) % 32, by omega⟩)
  | .clip => if h : xo + b < 64 ∧ yo + r < 32 then some (⟨xo + b, h.1⟩, ⟨yo + r, h.2⟩) else none

end Sys2Proof.Machine
end

