-- ==== Sys2Proof/Machine/Alu.lean ====
section
/-! DEFINITION. The register file and ALU instructions (spec/42_alu.md). None touches memory or, beyond the cycle's +2,
PC. -/

namespace Sys2Proof.Machine

/-- 6XKK: `V[x] <- kk` (R180). -/
def execLdKk (x : Reg) (kk : Byte) (s : State) : Result := .next (s.setReg x kk)

/-- 7XKK: `V[x] <- trunc_8(V[x] + kk)`, no flag (R181). -/
def execAddKk (x : Reg) (kk : Byte) (s : State) : Result := .next (s.setReg x (s.reg x + kk))

/-- 8XY0: `V[x] <- V[y]` (R182). -/
def execLdReg (x y : Reg) (s : State) : Result := .next (s.setReg x (s.reg y))

/-- 8XY1: bitwise OR; VF is not written as a flag (R183, R193). -/
def execOrReg (x y : Reg) (s : State) : Result := .next (s.setReg x (s.reg x ||| s.reg y))

/-- 8XY2: bitwise AND (R184, R193). -/
def execAndReg (x y : Reg) (s : State) : Result := .next (s.setReg x (s.reg x &&& s.reg y))

/-- 8XY3: bitwise exclusive OR (R185, R193). -/
def execXorReg (x y : Reg) (s : State) : Result := .next (s.setReg x (s.reg x ^^^ s.reg y))

/-- 8XY4: add modulo 256, VF the carry, written last (R186). -/
def execAddReg (x y : Reg) (s : State) : Result :=
  .next (s.setRegFlag x (s.reg x + s.reg y) (carryFlag (s.reg x) (s.reg y)))

/-- 8XY5: Vx − Vy modulo 256, VF = 1 iff Vx > Vy (R187). -/
def execSubReg (x y : Reg) (s : State) : Result :=
  .next (s.setRegFlag x (s.reg x - s.reg y) (noBorrowFlag (s.reg x) (s.reg y)))

/-- 8XY7: Vy − Vx modulo 256, VF = 1 iff Vy > Vx (R189). -/
def execSubnReg (x y : Reg) (s : State) : Result :=
  .next (s.setRegFlag x (s.reg y - s.reg x) (noBorrowFlag (s.reg y) (s.reg x)))

/-- SHR for either value of `SHIFT_SOURCE` (R188). -/
def shiftRight (src : Config.ShiftSource) (x y : Reg) (s : State) : Result :=
  .next (s.setRegFlag x (shiftOperand src x y s >>> 1) (shiftedOutLow (shiftOperand src x y s)))

/-- 8XY6: shift right by one, VF the old bit 0 (R188). -/
def execShr (x y : Reg) (s : State) : Result := shiftRight shiftSource x y s

/-- SHL for either value of `SHIFT_SOURCE` (R190). -/
def shiftLeft (src : Config.ShiftSource) (x y : Reg) (s : State) : Result :=
  .next (s.setRegFlag x (shiftOperand src x y s <<< 1) (shiftedOutHigh (shiftOperand src x y s)))

/-- 8XYE: shift left by one, VF the old bit 7 (R190). -/
def execShl (x y : Reg) (s : State) : Result := shiftLeft shiftSource x y s

/-- CXKK: `V[x] <- rnd & kk`, one draw taken (R191, spec/10_state.md R44). -/
def execRnd (x : Reg) (kk : Byte) (s : State) : Result :=
  .next { s.setReg x (s.draw &&& kk) with draws := s.draws + 1 }

end Sys2Proof.Machine
end

