-- ==== Sys2Proof/Machine/Control.lean ====
section
/-! DEFINITION. Control transfer (spec/41_control_flow.md). A handler's PC is already the fetch address plus 2; no
handler checks a target against the memory bound (R160). -/

namespace Sys2Proof.Machine

/-- 00EE: pop PC (R150). -/
def execRet (s : State) : Result := ret s

/-- 1NNN: `PC <- zext_16(nnn)` (R151). -/
def execJpAddr (nnn : Addr12) (s : State) : Result := .next (s.setPc (addrOf nnn))

/-- 2NNN: push the return address, jump (R152). -/
def execCallAddr (nnn : Addr12) (s : State) : Result := call (addrOf nnn) s

/-- BNNN: `PC <- V[0] + nnn` (R153). -/
def execJpV0 (nnn : Addr12) (s : State) : Result := .next (s.setPc (offsetTarget (s.reg 0) nnn))

/-- 3XKK: skip if Vx = kk (R154). -/
def execSeKk (x : Reg) (kk : Byte) (s : State) : Result := .next (s.skipIf (decide (s.reg x = kk)))

/-- 4XKK: skip if Vx ≠ kk (R155). -/
def execSneKk (x : Reg) (kk : Byte) (s : State) : Result := .next (s.skipIf (decide (s.reg x ≠ kk)))

/-- 5XY0: skip if Vx = Vy (R156). -/
def execSeReg (x y : Reg) (s : State) : Result := .next (s.skipIf (decide (s.reg x = s.reg y)))

/-- 9XY0: skip if Vx ≠ Vy (R157). -/
def execSneReg (x y : Reg) (s : State) : Result := .next (s.skipIf (decide (s.reg x ≠ s.reg y)))

/-- EX9E: skip if key Vx is pressed (R158). -/
def execSkp (x : Reg) (s : State) : Result := withKey (s.reg x) s fun pressed => s.skipIf pressed

/-- EXA1: skip if key Vx is not pressed (R159). -/
def execSknp (x : Reg) (s : State) : Result := withKey (s.reg x) s fun pressed => s.skipIf (!pressed)

end Sys2Proof.Machine
end

