-- ==== Sys2Proof/Machine/Display.lean ====
section
/-! DEFINITION. Clear screen and draw sprite with the collision detector (spec/44_display.md). -/

namespace Sys2Proof.Machine

/-- The framebuffer while a sprite is drawn, with the collision found so far (`c` of R241). -/
structure Canvas where
  fb : Framebuffer
  hit : Bool
  deriving DecidableEq, Repr

/-- 00E0: every pixel unlit (R240). -/
def execCls (s : State) : Result := .next { s with fb := clearedFb }

/-- One set sprite bit: the collision is tested before the XOR (R241, R244). A bit that falls on no pixel is neither
drawn nor tested (R243). -/
def plot (at? : Option (Fin 64 × Fin 32)) (c : Canvas) : Canvas :=
  match at? with
  | none => c
  | some (x, y) => { fb := flipPixel c.fb x y, hit := c.hit || pixel c.fb x y }

/-- Row `r` of a sprite at (xo, yo), column 0 first; a bit that is 0 is skipped (R241). -/
def plotRow (policy : Config.DrawEdgePolicy) (xo yo r : Nat) (row : Byte) (c : Canvas) : Canvas :=
  (List.range 8).foldl (fun c b => if spriteBit row b then plot (target policy xo yo r b) c else c) c

/-- The rows of a sprite, the first of them row `r` (R241). -/
def plotRows (policy : Config.DrawEdgePolicy) (xo yo r : Nat) (rows : List Byte) (c : Canvas) : Canvas :=
  match rows with
  | [] => c
  | row :: rest => plotRows policy xo yo (r + 1) rest (plotRow policy xo yo r row c)

/-- The sprite `rows` drawn at (xo, yo) on `fb`. -/
def drawSprite (policy : Config.DrawEdgePolicy) (xo yo : Nat) (rows : List Byte) (fb : Framebuffer) : Canvas :=
  plotRows policy xo yo 0 rows { fb := fb, hit := false }

/-- DRW for either value of `DRAW_EDGE_POLICY` (R241, R243): the coordinates and the rows are read first, the collision
flag goes to VF last. With n = 0 no memory is read and VF becomes 0. -/
def drawWith (policy : Config.DrawEdgePolicy) (x y : Reg) (n : Fin 16) (s : State) : Result :=
  let c := drawSprite policy (originX (s.reg x)) (originY (s.reg y)) (s.mem.readBytes s.base n.val) s.fb
  withWindow s.base n.val s ({ s with fb := c.fb }.setReg regF (flagByte c.hit))

/-- DXYN (R241). -/
def execDrw (x y : Reg) (n : Fin 16) (s : State) : Result := drawWith drawEdgePolicy x y n s

end Sys2Proof.Machine
end

