-- ==== Sys2Proof/Machine/Index.lean ====
section
/-! DEFINITION. The index register, loads and stores (spec/43_index_memory.md). No access changes I (R216). -/

namespace Sys2Proof.Machine

/-- ANNN: `I <- zext_16(nnn)` (R210). -/
def execLdI (nnn : Addr12) (s : State) : Result := .next (s.setI (addrOf nnn))

/-- FX1E: `I <- trunc_16(I + V[x])`, no flag (R211). -/
def execAddI (x : Reg) (s : State) : Result := .next (s.setI (indexPlus s.i (s.reg x)))

/-- FX29: `I <- 0x050 + 5 * V[x]` (R212). -/
def execLdF (x : Reg) (s : State) : Result := .next (s.setI (glyphAddress (s.reg x)))

/-- FX33: the decimal digits of Vx at I, I+1, I+2 (R213). -/
def execLdB (x : Reg) (s : State) : Result :=
  withWindow s.base 3 s { s with mem := s.mem.writeBytes s.base (bcdDigits (s.reg x)) }

/-- FX55: V0..Vx to I..I+x (R214). -/
def execLdMemVx (x : Reg) (s : State) : Result :=
  withWindow s.base (x.val + 1) s { s with mem := s.mem.writeBytes s.base (s.regsUpTo x) }

/-- FX65: V0..Vx from I..I+x (R215). -/
def execLdVxMem (x : Reg) (s : State) : Result :=
  withWindow s.base (x.val + 1) s { s with v := loadRegs s.v s.mem s.base x }

end Sys2Proof.Machine
end

