-- ==== Sys2Proof/Machine/Timers.lean ====
section
/-! DEFINITION. Timer transfers and the wait for a key (spec/45_timers_keys.md). The tick is the cycle's, after the
handler (`endCycle`). -/

namespace Sys2Proof.Machine

/-- FX07: `V[x] <- DT`, as the cycle found it (R260). -/
def execLdVxDt (x : Reg) (s : State) : Result := .next (s.setReg x s.dt)

/-- FX0A: the least pressed key into Vx; with no key pressed PC goes back to this instruction (R261). -/
def execLdVxK (x : Reg) (s : State) : Result :=
  match firstKey s.key with
  | some k => .next (s.setReg x (BitVec.ofNat 8 k.val))
  | none => .next { s with pc := s.pc - 2 }

/-- FX15: `DT <- V[x]` (R262). -/
def execLdDtVx (x : Reg) (s : State) : Result := .next { s with dt := s.reg x }

/-- FX18: `ST <- V[x]` (R263). -/
def execLdStVx (x : Reg) (s : State) : Result := .next { s with st := s.reg x }

end Sys2Proof.Machine
end

