-- ==== Sys2Proof/Machine/Unmapped.lean ====
section
/-! DEFINITION. The handler of unmapped words (spec/30_encoding.md R107, R108). -/

namespace Sys2Proof.Machine

/-- An unmapped word `w` under either value of `UNKNOWN_OPCODE_POLICY` (R108): `NOP` changes nothing, `ERROR` raises
UnknownOpcode (spec/60_exceptions.md R285). -/
def unmappedWith (policy : Config.UnknownOpcodePolicy) (w : Word) (s : State) : Result :=
  match policy with
  | .nop => .next s
  | .error => raise (.unknownOpcode s.pc0 w)

end Sys2Proof.Machine
end

