-- ==== Sys2Proof/Machine/Step.lean ====
section
/-! DEFINITION. One step of the machine, which is one `cycle` transaction (spec/40_cycle.md R130, R134). -/

namespace Sys2Proof.Machine

/-- Steps (c) and (d) of the cycle: decode the word and run exactly one handler (R133), the unmapped one under either
value of `UNKNOWN_OPCODE_POLICY` (spec/30_encoding.md R108). -/
def runWordWith (policy : Config.UnknownOpcodePolicy) (w : Word) (s : State) : Result :=
  match decode w with
  | .ok i => exec i s
  | .error _ => unmappedWith policy w s

/-- Steps (c) and (d) on this hardware. -/
def runWord (w : Word) (s : State) : Result := runWordWith unknownOpcodePolicy w s

/-- *Advance one cycle* (R130) under either policy: fetch, PC + 2, decode, dispatch, timer tick; an error anywhere leaves
everything as it was (R137). -/
def stepWith (policy : Config.UnknownOpcodePolicy) (s : State) : Result :=
  match fetch s with
  | .error e => raise e
  | .ok w => finish (runWordWith policy w s.advance)

/-- *Advance one cycle* on this hardware. -/
def step (s : State) : Host.Outcome State Fault Refusal := stepWith unknownOpcodePolicy s

/-- The address the next fetch can succeed at: PC, or the program start where PC is at or past 0xFFF (R131). -/
def fetchAddress (s : State) : Word := if s.pc.toNat + 1 < Config.memSize then s.pc else BitVec.ofNat 16 Config.progStart

/-- `s` with the instruction whose bits are `w` in memory where the next step fetches. PC changes only where no fetch
could succeed at it. -/
def State.withFetchWord (s : State) (nbits w : Nat) : State :=
  { s with
    pc := fetchAddress s
    mem := s.mem.writeBytes (fetchAddress s).toNat (bytesOfWord (tableWord nbits w)) }

end Sys2Proof.Machine
end

