-- ==== Sys2Proof/WellFormed.lean ====
section
/-! DEFINITION. What a well-formed instruction, word and program image are.

An `Instr` is well formed by its type: each field is exactly as wide as spec/30_encoding.md R101 makes it and every
value is legal (R102), so there is no ill-formed `Instr` to refuse and statements about instructions carry no such
hypothesis. What can be ill formed is what comes from outside: a word whose unexamined digits are not the canonical
ones, and a program image. -/

namespace Sys2Proof

/-- The word is canonical: the digits that the dispatch does not examine are those of the source's spelling
(spec/30_encoding.md R111): 00E0, 00EE, EX9E, EXA1, 5XY0, 9XY0. Every other word has no unexamined digit. -/
def wellFormedWord (w : Word) : Bool :=
  if fieldOp w = 0x0 ∧ fieldN w = 0x0 then decide (w = 0x00E0)
  else if fieldOp w = 0x0 ∧ fieldN w = 0xE then decide (w = 0x00EE)
  else if fieldOp w = 0x5 ∨ fieldOp w = 0x9 then decide (fieldN w = 0x0)
  else if fieldOp w = 0xE ∧ fieldN w = 0xE then decide (fieldKk w = 0x9E)
  else if fieldOp w = 0xE ∧ fieldN w = 0x1 then decide (fieldKk w = 0xA1)
  else true

/-- A program image the `load` port accepts (spec/20_memory.md R91): at most 3584 bytes. -/
def wellFormedImage (img : List Byte) : Bool := decide (img.length ≤ Config.maxImage)

end Sys2Proof
end

