-- ==== Sys2Proof/Machine/Ports.lean ====
section
/-! DEFINITION. The host's five ports (spec/10_state.md R45-R50, spec/20_memory.md R91-R93): each a transaction, atomic,
one at a time (R52, spec/20_memory.md R84). A host session is a list of transactions; two that overlap cannot be
written down, since the spec gives them no meaning. -/

namespace Sys2Proof.Machine

/-- A transaction the host issues (R45). -/
inductive Transaction where
  /-- Construction (R46). -/
  | reset
  /-- A program image (R49). -/
  | load (img : List Byte)
  /-- The keypad, bit k for key k (R47). -/
  | setKeys (k : BitVec 16)
  /-- One cycle, with its draw (R50). -/
  | cycle (rnd : Byte)
  /-- The framebuffer (R48). -/
  | readFb
  deriving DecidableEq, Repr

/-- What a transaction returns (R45). -/
inductive Reply where
  | ok
  /-- `err(code, info)` (spec/60_exceptions.md R280). -/
  | err (code : Nat) (info : Fault)
  /-- The pixels in row-major order and the pitch (R48). -/
  | pixels (entries : List Bool) (pitch : Nat)
  /-- A cycle to which the model gives no meaning; no cycle of this model answers it. -/
  | noMeaning (why : Refusal)
  deriving DecidableEq, Repr

/-- `reset` (R46, spec/70_reset_and_hazards.md R311, R312). The count of free draws goes on, so that no draw after the
reset repeats one before it (assumption 1). -/
def resetPort (s : State) : State := { State.reset with draws := s.draws }

/-- `load(img)` (spec/20_memory.md R91): an image of more than 3584 bytes is refused whole; any other is copied to
[0x200, 0x200 + len), and nothing else changes (R92). -/
def loadPort (img : List Byte) (s : State) : Result :=
  if wellFormedImage img then .next { s with mem := s.mem.writeBytes Config.progStart img }
  else raise (.loadError img.length)

/-- `set_keys(k)` (R47). -/
def setKeysPort (k : BitVec 16) (s : State) : State := { s with key := Vector.ofFn fun j => k.getLsbD j.val }

/-- `cycle(rnd)` (R50): one step with the host's draw. -/
def cyclePort (rnd : Byte) (s : State) : Result := step { s with rndIn := some rnd }

/-- The framebuffer as 64×32 entries, pixel (x, y) at index y·64 + x (R48). -/
def linearFb (fb : Framebuffer) : List Bool := (fb.toList.map fun row => row.toList).flatten

/-- The state and the reply after a transaction that answered `r` from `s`: an error leaves the state as it was
(spec/40_cycle.md R137, spec/60_exceptions.md R289). -/
def settle (s : State) (r : Result) : State × Reply :=
  match r with
  | .next t => (t, .ok)
  | .fault e => (s, .err e.code e)
  | .refused x => (s, .noMeaning x)

/-- One transaction (R45). -/
def transact (t : Transaction) (s : State) : State × Reply :=
  match t with
  | .reset => (resetPort s, .ok)
  | .load img => settle s (loadPort img s)
  | .setKeys k => (setKeysPort k s, .ok)
  | .cycle rnd => settle s (cyclePort rnd s)
  | .readFb => (s, .pixels (linearFb s.fb) Config.fbWidth)

/-- A host session: transactions in the order the host issues them, one total order (spec/20_memory.md R83, R84), with
the replies. -/
def session (ts : List Transaction) (s : State) : State × List Reply :=
  match ts with
  | [] => (s, [])
  | t :: rest =>
    let (s', r) := transact t s
    let (s'', rs) := session rest s'
    (s'', r :: rs)

end Sys2Proof.Machine
end

