-- ==== Sys2Proof/Safety.lean ====
section
/-! DEFINITION. What counts as a safe run, and the words the claims use: the states a host can bring the machine to, the
invariant they keep, and what a handler or a step leaves unchanged. -/

namespace Sys2Proof.Machine

/-- The cycle from `s` returns `ok`. -/
def Completes (s : State) : Prop := ∃ t, step s = .next t

/-- A host session from reset brings the machine to `s` (spec/10_state.md R45, spec/20_memory.md R84). -/
def Reachable (s : State) : Prop := ∃ ts, (session ts State.reset).1 = s

/-- PC is at most 0x10FE, the largest value BNNN can give (spec/10_state.md R36). -/
abbrev PcBounded (s : State) : Prop := s.pc.toNat ≤ 0x10FE

/-- Every stack entry is at most 0x1000, the largest return address a CALL can push (spec/41_control_flow.md R150). -/
abbrev StackBounded (s : State) : Prop := ∀ j : Fin 16, s.stack[j].toNat ≤ 0x1000

/-- The invariant of every run: memory in canonical form and inside its 4096 bytes, PC and the return addresses within
the bounds the spec derives. -/
structure Inv (s : State) : Prop where
  memory : s.mem.wf = true
  pc : PcBounded s
  stack : StackBounded s

/-! ## Frames -/

/-- The parts of the state (spec/10_state.md R30); `draw` is the model's own two fields. -/
inductive Part where
  | regs
  | i
  | pc
  | stack
  | sp
  | dt
  | st
  | mem
  | fb
  | key
  | draw
  deriving DecidableEq, Repr

/-- `t` has in part `p` what `s` has; for memory, every byte reads as before. -/
def Keeps (p : Part) (s t : State) : Prop :=
  match p with
  | .regs => ∀ r : Reg, t.reg r = s.reg r
  | .i => t.i = s.i
  | .pc => t.pc = s.pc
  | .stack => ∀ j : Fin 16, t.stack[j] = s.stack[j]
  | .sp => t.sp = s.sp
  | .dt => t.dt = s.dt
  | .st => t.st = s.st
  | .mem => ∀ a, t.mem.read a = s.mem.read a
  | .fb => ∀ x y, pixel t.fb x y = pixel s.fb x y
  | .key => ∀ k : Fin 16, t.key[k] = s.key[k]
  | .draw => t.rndIn = s.rndIn ∧ t.draws = s.draws

/-- No part outside `ps` changes from `s` to `t`. -/
def OnlyChanges (ps : List Part) (s t : State) : Prop := ∀ p, p ∉ ps → Keeps p s t

/-- No register outside `rs` changes. -/
def OnlyRegs (rs : List Reg) (s t : State) : Prop := ∀ r, r ∉ rs → t.reg r = s.reg r

/-- No byte of memory outside [a, a + len) changes. -/
def OnlyBytes (a len : Nat) (s t : State) : Prop := ∀ b, b < a ∨ a + len ≤ b → t.mem.read b = s.mem.read b

/-- The parts of the state an instruction's handler may change: the registers its rule writes (spec/10_state.md R34),
I (R37), the stack (R38), the timers (R40), the framebuffer (R41), memory (spec/20_memory.md R80) and PC
(spec/41_control_flow.md, spec/45_timers_keys.md R261). No handler writes the keypad (spec/10_state.md R42, R47). -/
def writes (i : Instr) : List Part :=
  match i with
  | .cls => [.fb]
  | .ret => [.pc, .sp]
  | .jpAddr _ | .jpV0 _ => [.pc]
  | .callAddr _ => [.pc, .stack, .sp]
  | .seKk _ _ | .sneKk _ _ | .seReg _ _ | .sneReg _ _ | .skp _ | .sknp _ => [.pc]
  | .ldKk _ _ | .addKk _ _ | .ldReg _ _ | .orReg _ _ | .andReg _ _ | .xorReg _ _ => [.regs]
  | .addReg _ _ | .subReg _ _ | .shr _ _ | .subnReg _ _ | .shl _ _ => [.regs]
  | .rnd _ _ => [.regs, .draw]
  | .drw _ _ _ => [.regs, .fb]
  | .ldVxDt _ => [.regs]
  | .ldVxK _ => [.regs, .pc]
  | .ldDtVx _ => [.dt]
  | .ldStVx _ => [.st]
  | .ldI _ | .addI _ | .ldF _ => [.i]
  | .ldB _ | .ldMemVx _ => [.mem]
  | .ldVxMem _ => [.regs]

/-- The registers an instruction may change: its destination, VF for the six flag writers (spec/10_state.md R33, R34),
V0..Vx for FX65. -/
def writtenRegs (i : Instr) : List Reg :=
  match i with
  | .ldKk x _ | .addKk x _ | .ldReg x _ | .orReg x _ | .andReg x _ | .xorReg x _ => [x]
  | .addReg x _ | .subReg x _ | .shr x _ | .subnReg x _ | .shl x _ => [x, regF]
  | .rnd x _ | .ldVxDt x | .ldVxK x => [x]
  | .drw _ _ _ => [regF]
  | .ldVxMem x => (List.finRange 16).filter fun r => decide (r ≤ x)
  | .cls | .ret | .jpAddr _ | .callAddr _ | .seKk _ _ | .sneKk _ _ | .seReg _ _ | .sneReg _ _ => []
  | .ldI _ | .jpV0 _ | .skp _ | .sknp _ | .ldDtVx _ | .ldStVx _ | .addI _ | .ldF _ | .ldB _ | .ldMemVx _ => []

/-- The window of memory an instruction stores to, as base and length (spec/20_memory.md R80): I, I+1, I+2 for FX33, I
to I+x for FX55, nothing for any other. -/
def storedWindow (i : Instr) (s : State) : Nat × Nat :=
  match i with
  | .ldB _ => (s.base, 3)
  | .ldMemVx x => (s.base, x.val + 1)
  | .cls | .ret | .jpAddr _ | .callAddr _ | .seKk _ _ | .sneKk _ _ | .seReg _ _ | .sneReg _ _ => (s.base, 0)
  | .ldKk _ _ | .addKk _ _ | .ldReg _ _ | .orReg _ _ | .andReg _ _ | .xorReg _ _ => (s.base, 0)
  | .addReg _ _ | .subReg _ _ | .shr _ _ | .subnReg _ _ | .shl _ _ | .rnd _ _ | .drw _ _ _ => (s.base, 0)
  | .ldI _ | .jpV0 _ | .skp _ | .sknp _ | .ldVxDt _ | .ldVxK _ | .ldDtVx _ | .ldStVx _ => (s.base, 0)
  | .addI _ | .ldF _ | .ldVxMem _ => (s.base, 0)

end Sys2Proof.Machine
end

