-- ==== Sys2Proof/Certificates/Slice0/Obligations.lean ====
section
/-! DEFINITION. The statements for the provers. A handler's state has PC at the fetch address plus 2
(spec/40_cycle.md R132), so in a statement about `exec i s` the instruction's own address is `s.pc - 2`. -/

open Sys2Proof Sys2Proof.Machine

/-! ## Encoding -/

/-- spec/30_encoding.md R114: every instruction's canonical word decodes to it with its fields; of the words that decode
to it, exactly the canonical one is its encoding; and the fetch of its two bytes gives that word. -/
def Obligations.DecodeEncodeRoundTrip : Prop :=
  (∀ i : Instr, decode (encode i) = .ok i) ∧
  (∀ (w : Word) (i : Instr), decode w = .ok i → (encode i = w ↔ wellFormedWord w = true)) ∧
  (∀ (i : Instr) (s : State), s.pc.toNat + 1 < 4096 → s.mem.read s.pc.toNat = highByte (encode i) →
    s.mem.read (s.pc.toNat + 1) = lowByte (encode i) → fetch s = .ok (encode i))

/-- spec/30_encoding.md R106: each row's match and mask. Its operands are the bits of R101, whose places the spec marks as
its own inference, and the rows whose name R106 marks "gk" are the spec's general knowledge (assumption 6). -/
def Obligations.DecodeFollowsTheOpcodeMap : Prop :=
  ∀ (w : Word) (x y : Reg) (n : Fin 16) (kk : Byte) (nnn : Addr12),
    x.val = w.toNat / 2 ^ 8 % 2 ^ 4 → y.val = w.toNat / 2 ^ 4 % 2 ^ 4 → n.val = w.toNat % 2 ^ 4 →
    kk.toNat = w.toNat % 2 ^ 8 → nnn.toNat = w.toNat % 2 ^ 12 →
    (w &&& 0xF00F = 0x0000 ↔ decode w = .ok .cls) ∧
    (w &&& 0xF00F = 0x000E ↔ decode w = .ok .ret) ∧
    (w &&& 0xF000 = 0x1000 ↔ decode w = .ok (.jpAddr nnn)) ∧
    (w &&& 0xF000 = 0x2000 ↔ decode w = .ok (.callAddr nnn)) ∧
    (w &&& 0xF000 = 0x3000 ↔ decode w = .ok (.seKk x kk)) ∧
    (w &&& 0xF000 = 0x4000 ↔ decode w = .ok (.sneKk x kk)) ∧
    (w &&& 0xF000 = 0x5000 ↔ decode w = .ok (.seReg x y)) ∧
    (w &&& 0xF000 = 0x6000 ↔ decode w = .ok (.ldKk x kk)) ∧
    (w &&& 0xF000 = 0x7000 ↔ decode w = .ok (.addKk x kk)) ∧
    (w &&& 0xF00F = 0x8000 ↔ decode w = .ok (.ldReg x y)) ∧
    (w &&& 0xF00F = 0x8001 ↔ decode w = .ok (.orReg x y)) ∧
    (w &&& 0xF00F = 0x8002 ↔ decode w = .ok (.andReg x y)) ∧
    (w &&& 0xF00F = 0x8003 ↔ decode w = .ok (.xorReg x y)) ∧
    (w &&& 0xF00F = 0x8004 ↔ decode w = .ok (.addReg x y)) ∧
    (w &&& 0xF00F = 0x8005 ↔ decode w = .ok (.subReg x y)) ∧
    (w &&& 0xF00F = 0x8006 ↔ decode w = .ok (.shr x y)) ∧
    (w &&& 0xF00F = 0x8007 ↔ decode w = .ok (.subnReg x y)) ∧
    (w &&& 0xF00F = 0x800E ↔ decode w = .ok (.shl x y)) ∧
    (w &&& 0xF000 = 0x9000 ↔ decode w = .ok (.sneReg x y)) ∧
    (w &&& 0xF000 = 0xA000 ↔ decode w = .ok (.ldI nnn)) ∧
    (w &&& 0xF000 = 0xB000 ↔ decode w = .ok (.jpV0 nnn)) ∧
    (w &&& 0xF000 = 0xC000 ↔ decode w = .ok (.rnd x kk)) ∧
    (w &&& 0xF000 = 0xD000 ↔ decode w = .ok (.drw x y n)) ∧
    (w &&& 0xF00F = 0xE00E ↔ decode w = .ok (.skp x)) ∧
    (w &&& 0xF00F = 0xE001 ↔ decode w = .ok (.sknp x)) ∧
    (w &&& 0xF0FF = 0xF007 ↔ decode w = .ok (.ldVxDt x)) ∧
    (w &&& 0xF0FF = 0xF00A ↔ decode w = .ok (.ldVxK x)) ∧
    (w &&& 0xF0FF = 0xF015 ↔ decode w = .ok (.ldDtVx x)) ∧
    (w &&& 0xF0FF = 0xF018 ↔ decode w = .ok (.ldStVx x)) ∧
    (w &&& 0xF0FF = 0xF01E ↔ decode w = .ok (.addI x)) ∧
    (w &&& 0xF0FF = 0xF029 ↔ decode w = .ok (.ldF x)) ∧
    (w &&& 0xF0FF = 0xF033 ↔ decode w = .ok (.ldB x)) ∧
    (w &&& 0xF0FF = 0xF055 ↔ decode w = .ok (.ldMemVx x)) ∧
    (w &&& 0xF0FF = 0xF065 ↔ decode w = .ok (.ldVxMem x))

/-- The sets of spec/30_encoding.md R107 (its counts are not stated): a word has no instruction exactly when its
sub-selector is one the table of its family lists. `op`, `n` and `kk` are the bits of R101, the spec's own inference. -/
def Obligations.UnmappedWordsAreThoseOfTheFourFamilies : Prop :=
  ∀ (w : Word) (op n kk : Nat), op = w.toNat / 4096 → n = w.toNat % 16 → kk = w.toNat % 256 →
    ((∃ e, decode w = .error e) ↔
      (op = 0x0 ∧ n ∉ [0x0, 0xE]) ∨
      (op = 0x8 ∧ n ∈ [0x8, 0x9, 0xA, 0xB, 0xC, 0xD, 0xF]) ∨
      (op = 0xE ∧ n ∉ [0x1, 0xE]) ∨
      (op = 0xF ∧ kk ∉ [0x07, 0x0A, 0x15, 0x18, 0x1E, 0x29, 0x33, 0x55, 0x65]))

/-- Words written out from the spec's encodings decode to the instructions they stand for, one or more of each family of
the opcode map (spec/95_test_vectors.md S1, T-ENC; spec/30_encoding.md R113). -/
def Obligations.SpelledWordsDecode : Prop :=
  decode 0x00E0 = .ok .cls ∧ decode 0x01E0 = .ok .cls ∧ decode 0x0A5E = .ok .ret ∧
  decode 0x0123 = .error (.family0 3) ∧ decode 0x2210 = .ok (.callAddr 0x210) ∧
  decode 0x3742 = .ok (.seKk 7 0x42) ∧ decode 0x5121 = .ok (.seReg 1 2) ∧
  decode 0x8354 = .ok (.addReg 3 5) ∧ decode 0x8AB6 = .ok (.shr 0xA 0xB) ∧ decode 0x800F = .error (.family8 0xF) ∧
  decode 0xA2A4 = .ok (.ldI 0x2A4) ∧ decode 0xB123 = .ok (.jpV0 0x123) ∧ decode 0xC10F = .ok (.rnd 1 0x0F) ∧
  decode 0xD015 = .ok (.drw 0 1 5) ∧ decode 0xE39E = .ok (.skp 3) ∧ decode 0xE311 = .ok (.sknp 3) ∧
  decode 0xF265 = .ok (.ldVxMem 2) ∧ decode 0xF30B = .error (.familyF 0x0B)

/-! ## The cycle -/

/-- spec/40_cycle.md R130, R132: the bytes at PC and PC + 1, big-endian, decode to `i`; the step is `exec i` with PC
advanced by 2, and after a handler that returns, DT and then ST tick. That the draw the
transaction brought ends with it (`rndIn`) is the model's choice (assumption 1). -/
def Obligations.StepRunsTheDecodedInstruction : Prop :=
  ∀ (s : State) (i : Instr), s.pc.toNat + 1 < 4096 →
    decodeBytes [s.mem.read s.pc.toNat, s.mem.read (s.pc.toNat + 1)] = .ok (i, []) →
    step s = match exec i { s with pc := s.pc + 2 } with
      | .next u => .next { u with
          dt := if u.dt = 0 then 0 else u.dt - 1
          st := if u.st = 0 then 0 else u.st - 1
          rndIn := none }
      | .fault e => .fault e
      | .refused x => .refused x

/-- spec/40_cycle.md R131: the fetch reads MEM[PC]·256 + MEM[PC+1]; at PC ≥ 4096 the cycle raises
MemoryBoundsError(PC), at PC = 0xFFF MemoryBoundsError(0x1000), and in both cases the transaction changes nothing. -/
def Obligations.FetchOutsideMemoryFaults : Prop :=
  ∀ (s : State) (rnd : Byte),
    (s.pc.toNat ≤ 0xFFE → ∃ w, fetch s = .ok w ∧
      w.toNat = (s.mem.read s.pc.toNat).toNat * 256 + (s.mem.read (s.pc.toNat + 1)).toNat) ∧
    (s.pc.toNat = 0xFFF → step s = .fault (.memoryBounds s.pc .mem 0x1000) ∧
      transact (.cycle rnd) s = (s, .err 4 (.memoryBounds s.pc .mem 0x1000))) ∧
    (4096 ≤ s.pc.toNat → step s = .fault (.memoryBounds s.pc .mem s.pc.toNat) ∧
      transact (.cycle rnd) s = (s, .err 4 (.memoryBounds s.pc .mem s.pc.toNat)))

/-- spec/30_encoding.md R108, spec/60_exceptions.md R285: an unmapped word under `NOP`, this hardware's policy, only
advances PC and ticks the timers; under `ERROR` the cycle raises UnknownOpcode with the word and has no effect. -/
def Obligations.UnmappedWordOnlyAdvancesAndTicks : Prop :=
  ∀ (s : State) (w : Word) (e : Unmapped), fetch s = .ok w → decode w = .error e →
    (∃ t, step s = .next t ∧ t.pc = s.pc + 2 ∧ t.dt.toNat = s.dt.toNat - 1 ∧ t.st.toNat = s.st.toNat - 1 ∧
      OnlyChanges [.pc, .dt, .st, .draw] s t) ∧
    step s = stepWith .nop s ∧ stepWith .error s = .fault (.unknownOpcode s.pc w)

/-- spec/40_cycle.md R135: after a handler that returns, each timer is decremented if it is above 0 and stays at 0
otherwise; a timer that FX15 or FX18 wrote is ticked in the same cycle, and FX07 reads DT before the tick. -/
def Obligations.TimersTickInEverySuccessfulCycle : Prop :=
  ∀ (s t : State) (w : Word), fetch s = .ok w → step s = .next t →
    (∀ x, decode w = .ok (.ldDtVx x) → t.dt.toNat = (s.reg x).toNat - 1) ∧
    ((∀ x, decode w ≠ .ok (.ldDtVx x)) → t.dt.toNat = s.dt.toNat - 1) ∧
    (∀ x, decode w = .ok (.ldStVx x) → t.st.toNat = (s.reg x).toNat - 1) ∧
    ((∀ x, decode w ≠ .ok (.ldStVx x)) → t.st.toNat = s.st.toNat - 1) ∧
    (∀ x, decode w = .ok (.ldVxDt x) → t.reg x = s.dt)

/-- spec/60_exceptions.md R290: the core does not latch an error. A cycle issued again, with any draw and after any
`set_keys`, returns the same error with the same info, and changes nothing. -/
def Obligations.FailingCycleRepeatsItsError : Prop :=
  ∀ (s : State) (rnd rnd' : Byte) (k : BitVec 16) (c : Nat) (e : Fault),
    (transact (.cycle rnd) s).2 = .err c e →
      (transact (.cycle rnd) s).1 = s ∧
      transact (.cycle rnd') (transact (.setKeys k) s).1 = ((transact (.setKeys k) s).1, .err c e)

/-- spec/60_exceptions.md R282-R284, R288: exactly when a cycle fails, with which error and which info. A fetch error
comes first, and no instruction has two conditions. -/
def Obligations.CycleFailsExactlyAsTheErrorSetSays : Prop :=
  ∀ (s : State) (e : Fault), step s = .fault e ↔
    (0xFFF ≤ s.pc.toNat ∧ e = .memoryBounds s.pc .mem (max s.pc.toNat 4096)) ∨
    ∃ w, fetch s = .ok w ∧
      ((∃ nnn, decode w = .ok (.callAddr nnn) ∧ s.sp = 16 ∧ e = .stackOverflow s.pc) ∨
      (decode w = .ok .ret ∧ s.sp = 0 ∧ e = .stackUnderflow s.pc) ∨
      (∃ x y n, decode w = .ok (.drw x y n) ∧ 0 < n.val ∧ 4096 ≤ s.i.toNat + n.val - 1 ∧
        e = .memoryBounds s.pc .mem (max s.i.toNat 4096)) ∨
      (∃ x, decode w = .ok (.ldB x) ∧ 4096 ≤ s.i.toNat + 2 ∧ e = .memoryBounds s.pc .mem (max s.i.toNat 4096)) ∨
      (∃ x, decode w = .ok (.ldMemVx x) ∧ 4096 ≤ s.i.toNat + x.val ∧
        e = .memoryBounds s.pc .mem (max s.i.toNat 4096)) ∨
      (∃ x, decode w = .ok (.ldVxMem x) ∧ 4096 ≤ s.i.toNat + x.val ∧
        e = .memoryBounds s.pc .mem (max s.i.toNat 4096)) ∨
      (∃ x, (decode w = .ok (.skp x) ∨ decode w = .ok (.sknp x)) ∧ 16 ≤ (s.reg x).toNat ∧
        e = .memoryBounds s.pc .keypad (s.reg x).toNat))

/-- Every instruction has a meaning: no cycle, from any state, is refused, and an unmapped word is no exception
(spec/40_cycle.md R133). -/
def Obligations.NoCycleIsRefused : Prop :=
  ∀ (s : State) (x : Refusal) (rnd : Byte), step s ≠ .refused x ∧ (transact (.cycle rnd) s).2 ≠ .noMeaning x

/-- PC after a cycle (spec/40_cycle.md R132, spec/41_control_flow.md R160): only RET, JP, CALL and JP V0 leave the
instruction stream; a skip adds 4 where it skips and 2 where not; FX0A adds 2 or stays; every other word adds 2. -/
def Obligations.OnlyControlTransfersMovePc : Prop :=
  ∀ (s t : State) (w : Word), fetch s = .ok w → step s = .next t →
    (t.pc = s.pc + 2) ∨
    (t.pc = s.pc + 4 ∧ ((∃ x kk, decode w = .ok (.seKk x kk) ∨ decode w = .ok (.sneKk x kk)) ∨
      (∃ x y, decode w = .ok (.seReg x y) ∨ decode w = .ok (.sneReg x y)) ∨
      (∃ x, decode w = .ok (.skp x) ∨ decode w = .ok (.sknp x)))) ∨
    (t.pc = s.pc ∧ ∃ x, decode w = .ok (.ldVxK x)) ∨
    decode w = .ok .ret ∨
    ∃ nnn, decode w = .ok (.jpAddr nnn) ∨ decode w = .ok (.callAddr nnn) ∨ decode w = .ok (.jpV0 nnn)

/-! ## Frames over the whole machine -/

/-- The frame of every handler: it changes only the parts, the registers and the bytes that its rule writes
(`writes`, `writtenRegs`, `storedWindow`, read off spec/10_state.md R34, R37-R42 and spec/20_memory.md R80). -/
def Obligations.HandlerChangesOnlyWhatItsRuleWrites : Prop :=
  ∀ (i : Instr) (s t : State), exec i s = .next t →
    OnlyChanges (writes i) s t ∧ OnlyRegs (writtenRegs i) s t ∧
    OnlyBytes (storedWindow i s).1 (storedWindow i s).2 s t

/-- spec/44_display.md R245: only CLS and DXYN write FB; reset clears it; the host reads it between cycles as the last
completed cycle left it, a failed cycle leaving it alone. -/
def Obligations.OnlyClsAndDrwWriteTheFramebuffer : Prop :=
  ∀ (s t : State) (w : Word) (rnd : Byte) (p q : Fin 64 × Fin 32),
    (fetch s = .ok w → cyclePort rnd s = .next t → pixel t.fb p.1 p.2 ≠ pixel s.fb p.1 p.2 →
      decode w = .ok .cls ∨ ∃ x y n, decode w = .ok (.drw x y n)) ∧
    pixel (transact .reset s).1.fb q.1 q.2 = false ∧
    ((transact (.cycle rnd) s).2 ≠ .ok → (transact (.cycle rnd) s).1.fb = s.fb) ∧
    (transact .readFb s).1 = s ∧ (transact .readFb s).2 = .pixels (linearFb s.fb) 64

/-- Who writes I (spec/10_state.md R37), the stack and SP (R38), the keypad (R42: no instruction) and memory
(spec/20_memory.md R80) in a whole cycle. -/
def Obligations.CycleWritersOfIndexStackKeypadAndMemory : Prop :=
  ∀ (s t : State) (w : Word), fetch s = .ok w → step s = .next t →
    t.key = s.key ∧
    (t.i ≠ s.i → ∃ x nnn, decode w = .ok (.ldI nnn) ∨ decode w = .ok (.addI x) ∨ decode w = .ok (.ldF x)) ∧
    (t.sp ≠ s.sp → decode w = .ok .ret ∨ ∃ nnn, decode w = .ok (.callAddr nnn)) ∧
    (t.stack ≠ s.stack → ∃ nnn, decode w = .ok (.callAddr nnn)) ∧
    (∀ a, t.mem.read a ≠ s.mem.read a →
      ∃ x, (decode w = .ok (.ldB x) ∧ s.i.toNat ≤ a ∧ a < s.i.toNat + 3) ∨
        (decode w = .ok (.ldMemVx x) ∧ s.i.toNat ≤ a ∧ a ≤ s.i.toNat + x.val))

/-! ## Register file and ALU -/

/-- spec/42_alu.md R180, R182. -/
def Obligations.LoadImmediateAndCopyRegister : Prop :=
  ∀ (x y : Reg) (kk : Byte) (s : State),
    (∃ t, exec (.ldKk x kk) s = .next t ∧ t.reg x = kk ∧ OnlyChanges [.regs] s t ∧ OnlyRegs [x] s t) ∧
    (∃ t, exec (.ldReg x y) s = .next t ∧ t.reg x = s.reg y ∧ OnlyChanges [.regs] s t ∧ OnlyRegs [x] s t)

/-- spec/42_alu.md R181: modulo 256, no flag. -/
def Obligations.AddImmediateWrapsWithoutFlag : Prop :=
  ∀ (x : Reg) (kk : Byte) (s : State), ∃ t, exec (.addKk x kk) s = .next t ∧
    (t.reg x).toNat = ((s.reg x).toNat + kk.toNat) % 256 ∧ OnlyChanges [.regs] s t ∧ OnlyRegs [x] s t

/-- spec/42_alu.md R183, R184, R185, bit by bit; no flag is written. -/
def Obligations.LogicalOperationsBitwise : Prop :=
  ∀ (x y : Reg) (s : State),
    (∃ t, exec (.orReg x y) s = .next t ∧
      (∀ b < 8, (t.reg x).getLsbD b = ((s.reg x).getLsbD b || (s.reg y).getLsbD b)) ∧
      OnlyChanges [.regs] s t ∧ OnlyRegs [x] s t) ∧
    (∃ t, exec (.andReg x y) s = .next t ∧
      (∀ b < 8, (t.reg x).getLsbD b = ((s.reg x).getLsbD b && (s.reg y).getLsbD b)) ∧
      OnlyChanges [.regs] s t ∧ OnlyRegs [x] s t) ∧
    (∃ t, exec (.xorReg x y) s = .next t ∧
      (∀ b < 8, (t.reg x).getLsbD b = ((s.reg x).getLsbD b ^^ (s.reg y).getLsbD b)) ∧
      OnlyChanges [.regs] s t ∧ OnlyRegs [x] s t)

/-- spec/42_alu.md R186: the sum modulo 256 in Vx unless x is VF, the carry in VF whatever x and y are. -/
def Obligations.AddRegistersWithCarry : Prop :=
  ∀ (x y : Reg) (s : State), ∃ t, exec (.addReg x y) s = .next t ∧
    (x ≠ regF → (t.reg x).toNat = ((s.reg x).toNat + (s.reg y).toNat) % 256) ∧
    t.reg regF = (if (s.reg x).toNat + (s.reg y).toNat > 255 then 1 else 0) ∧
    OnlyChanges [.regs] s t ∧ OnlyRegs [x, regF] s t

/-- spec/42_alu.md R187, R189: the integer difference modulo 256, and VF = 1 iff the minuend is strictly greater. -/
def Obligations.SubtractWithStrictNoBorrow : Prop :=
  ∀ (x y : Reg) (s : State),
    (∃ t, exec (.subReg x y) s = .next t ∧
      (x ≠ regF → ((t.reg x).toNat : Int) = (((s.reg x).toNat : Int) - ((s.reg y).toNat : Int)) % 256) ∧
      t.reg regF = (if (s.reg x).toNat > (s.reg y).toNat then 1 else 0) ∧
      OnlyChanges [.regs] s t ∧ OnlyRegs [x, regF] s t) ∧
    (∃ t, exec (.subnReg x y) s = .next t ∧
      (x ≠ regF → ((t.reg x).toNat : Int) = (((s.reg y).toNat : Int) - ((s.reg x).toNat : Int)) % 256) ∧
      t.reg regF = (if (s.reg y).toNat > (s.reg x).toNat then 1 else 0) ∧
      OnlyChanges [.regs] s t ∧ OnlyRegs [x, regF] s t)

/-- spec/42_alu.md R188, R190: this hardware shifts Vx in place and does not read Vy; under `SHIFT_SOURCE = VY` the
operand is Vy. VF is the bit shifted out. -/
def Obligations.ShiftByOneWithBitOut : Prop :=
  ∀ (x y : Reg) (s : State),
    (∃ t, exec (.shr x y) s = .next t ∧ (x ≠ regF → (t.reg x).toNat = (s.reg x).toNat / 2) ∧
      (t.reg regF).toNat = (s.reg x).toNat % 2 ∧ OnlyChanges [.regs] s t ∧ OnlyRegs [x, regF] s t) ∧
    (∃ t, exec (.shl x y) s = .next t ∧ (x ≠ regF → (t.reg x).toNat = (s.reg x).toNat * 2 % 256) ∧
      (t.reg regF).toNat = (s.reg x).toNat / 128 ∧ OnlyChanges [.regs] s t ∧ OnlyRegs [x, regF] s t) ∧
    (∃ t, shiftRight .vy x y s = .next t ∧ (x ≠ regF → (t.reg x).toNat = (s.reg y).toNat / 2) ∧
      (t.reg regF).toNat = (s.reg y).toNat % 2 ∧ OnlyChanges [.regs] s t ∧ OnlyRegs [x, regF] s t) ∧
    (∃ t, shiftLeft .vy x y s = .next t ∧ (x ≠ regF → (t.reg x).toNat = (s.reg y).toNat * 2 % 256) ∧
      (t.reg regF).toNat = (s.reg y).toNat / 128 ∧ OnlyChanges [.regs] s t ∧ OnlyRegs [x, regF] s t)

/-- spec/42_alu.md R191: Vx is the draw masked, for every draw the host's `cycle(rnd)` brings; without one it is a free
value masked (assumption 1), so no bit that kk lacks is ever set. -/
def Obligations.RandomByteIsTheMaskedDraw : Prop :=
  ∀ (x : Reg) (kk : Byte) (s : State),
    (∃ t, exec (.rnd x kk) s = .next t ∧ (∀ rnd, s.rndIn = some rnd → t.reg x = rnd &&& kk) ∧
      (∀ b, kk.getLsbD b = false → (t.reg x).getLsbD b = false) ∧
      OnlyChanges [.regs, .draw] s t ∧ OnlyRegs [x] s t) ∧
    (∀ (w : Word) (rnd : Byte), fetch s = .ok w → decode w = .ok (.rnd x kk) →
      ∃ t, cyclePort rnd s = .next t ∧ t.reg x = rnd &&& kk)

/-! ## Control transfer -/

/-- spec/41_control_flow.md R151, R153: the target is nnn, or V0 + nnn without a wrap. -/
def Obligations.JumpsSetPc : Prop :=
  ∀ (nnn : Addr12) (s : State),
    (∃ t, exec (.jpAddr nnn) s = .next t ∧ t.pc.toNat = nnn.toNat ∧ OnlyChanges [.pc] s t) ∧
    (∃ t, exec (.jpV0 nnn) s = .next t ∧ t.pc.toNat = (s.reg 0).toNat + nnn.toNat ∧ OnlyChanges [.pc] s t)

/-- spec/41_control_flow.md R152: the return address is pushed, SP goes up by one, PC is nnn; with SP = 16 the call
raises StackOverflowError with its own address. -/
def Obligations.CallPushesTheReturnAddress : Prop :=
  ∀ (nnn : Addr12) (s : State),
    (s.sp.val < 16 → ∃ t, exec (.callAddr nnn) s = .next t ∧ t.sp.val = s.sp.val + 1 ∧
      (∀ j : Fin 16, t.stack[j] = if j.val = s.sp.val then s.pc else s.stack[j]) ∧ t.pc.toNat = nnn.toNat ∧
      OnlyChanges [.pc, .stack, .sp] s t) ∧
    (s.sp.val = 16 → exec (.callAddr nnn) s = .fault (.stackOverflow (s.pc - 2)))

/-- spec/41_control_flow.md R150: PC is the top entry, SP goes down by one, no entry is cleared; with SP = 0 the return
raises StackUnderflowError with its own address. -/
def Obligations.ReturnPopsTheStack : Prop :=
  ∀ s : State,
    (∀ j : Fin 16, s.sp.val = j.val + 1 → ∃ t, exec .ret s = .next t ∧ t.sp.val = j.val ∧ t.pc = s.stack[j] ∧
      OnlyChanges [.pc, .sp] s t) ∧
    (s.sp.val = 0 → exec .ret s = .fault (.stackUnderflow (s.pc - 2)))

/-- The source's property quoted in spec/41_control_flow.md R152: a call that succeeds and a later return with nothing
pushed or popped between them come back to the instruction after the call, whatever else the subroutine did. -/
def Obligations.CallThenReturnComesBack : Prop :=
  ∀ (nnn : Addr12) (s t u : State), exec (.callAddr nnn) s = .next t → u.sp = t.sp → u.stack = t.stack →
    ∃ v, exec .ret u = .next v ∧ v.pc = s.pc ∧ v.sp = s.sp ∧ OnlyChanges [.pc, .sp] u v

/-- spec/41_control_flow.md R154, R155, R156, R157. -/
def Obligations.RegisterSkipsAddTwoWhenTheConditionHolds : Prop :=
  ∀ (x y : Reg) (kk : Byte) (s : State),
    (∃ t, exec (.seKk x kk) s = .next t ∧ t.pc = (if s.reg x = kk then s.pc + 2 else s.pc) ∧ OnlyChanges [.pc] s t) ∧
    (∃ t, exec (.sneKk x kk) s = .next t ∧ t.pc = (if s.reg x = kk then s.pc else s.pc + 2) ∧ OnlyChanges [.pc] s t) ∧
    (∃ t, exec (.seReg x y) s = .next t ∧ t.pc = (if s.reg x = s.reg y then s.pc + 2 else s.pc) ∧
      OnlyChanges [.pc] s t) ∧
    (∃ t, exec (.sneReg x y) s = .next t ∧ t.pc = (if s.reg x = s.reg y then s.pc else s.pc + 2) ∧
      OnlyChanges [.pc] s t)

/-- spec/41_control_flow.md R158, R159: with V[x] the number of a key, the skip follows that key's state; with V[x] ≥ 16
MemoryBoundsError with space KEYPAD and the index. -/
def Obligations.KeySkipsFollowTheKey : Prop :=
  ∀ (x : Reg) (s : State),
    (∀ k : Fin 16, (s.reg x).toNat = k.val →
      (∃ t, exec (.skp x) s = .next t ∧ t.pc = (if s.key[k] = true then s.pc + 2 else s.pc) ∧
        OnlyChanges [.pc] s t) ∧
      (∃ t, exec (.sknp x) s = .next t ∧ t.pc = (if s.key[k] = true then s.pc else s.pc + 2) ∧
        OnlyChanges [.pc] s t)) ∧
    (16 ≤ (s.reg x).toNat →
      exec (.skp x) s = .fault (.memoryBounds (s.pc - 2) .keypad (s.reg x).toNat) ∧
      exec (.sknp x) s = .fault (.memoryBounds (s.pc - 2) .keypad (s.reg x).toNat))

/-! ## Index register, loads and stores -/

/-- spec/43_index_memory.md R210, R211, R212: nnn; I + V[x] modulo 2^16, no flag; 0x050 + 5·V[x] for every V[x]. -/
def Obligations.IndexRegisterArithmetic : Prop :=
  ∀ (x : Reg) (nnn : Addr12) (s : State),
    (∃ t, exec (.ldI nnn) s = .next t ∧ t.i.toNat = nnn.toNat ∧ OnlyChanges [.i] s t) ∧
    (∃ t, exec (.addI x) s = .next t ∧ t.i.toNat = (s.i.toNat + (s.reg x).toNat) % 2 ^ 16 ∧ OnlyChanges [.i] s t) ∧
    (∃ t, exec (.ldF x) s = .next t ∧ t.i.toNat = 0x050 + 5 * (s.reg x).toNat ∧ OnlyChanges [.i] s t)

/-- spec/43_index_memory.md R213: the three decimal digits at I, I+1, I+2, every other byte and part unchanged; an error
and no write when I + 2 is past the end. The stores are at `s.base`, which is I. -/
def Obligations.BcdStoresTheDecimalDigits : Prop :=
  ∀ (x : Reg) (s : State), s.mem.wf = true →
    (s.i.toNat + 2 < 4096 → ∃ t, exec (.ldB x) s = .next t ∧
      (t.mem.read s.i.toNat).toNat = (s.reg x).toNat / 100 ∧
      (t.mem.read (s.i.toNat + 1)).toNat = (s.reg x).toNat / 10 % 10 ∧
      (t.mem.read (s.i.toNat + 2)).toNat = (s.reg x).toNat % 10 ∧
      OnlyBytes s.i.toNat 3 s t ∧ OnlyChanges [.mem] s t) ∧
    (4096 ≤ s.i.toNat + 2 → exec (.ldB x) s = .fault (.memoryBounds (s.pc - 2) .mem (max s.i.toNat 4096)))

/-- spec/43_index_memory.md R214. -/
def Obligations.StoreRegistersToMemory : Prop :=
  ∀ (x : Reg) (s : State), s.mem.wf = true →
    (s.i.toNat + x.val < 4096 → ∃ t, exec (.ldMemVx x) s = .next t ∧
      (∀ r ≤ x, t.mem.read (s.i.toNat + r.val) = s.reg r) ∧
      OnlyBytes s.i.toNat (x.val + 1) s t ∧ OnlyChanges [.mem] s t) ∧
    (4096 ≤ s.i.toNat + x.val → exec (.ldMemVx x) s = .fault (.memoryBounds (s.pc - 2) .mem (max s.i.toNat 4096)))

/-- spec/43_index_memory.md R215. -/
def Obligations.LoadRegistersFromMemory : Prop :=
  ∀ (x : Reg) (s : State),
    (s.i.toNat + x.val < 4096 → ∃ t, exec (.ldVxMem x) s = .next t ∧
      (∀ r : Reg, t.reg r = if r ≤ x then s.mem.read (s.i.toNat + r.val) else s.reg r) ∧
      OnlyChanges [.regs] s t) ∧
    (4096 ≤ s.i.toNat + x.val → exec (.ldVxMem x) s = .fault (.memoryBounds (s.pc - 2) .mem (max s.i.toNat 4096)))

/-- FX55 and FX65 are inverse (spec/43_index_memory.md R214, R215, R216): after V0..Vx are stored, FX65 with the same I
brings them back into any register file. -/
def Obligations.StoreThenLoadBringsRegistersBack : Prop :=
  ∀ (x : Reg) (s t : State) (v : Vector Byte 16), s.mem.wf = true → exec (.ldMemVx x) s = .next t →
    ∃ u, exec (.ldVxMem x) { t with v := v } = .next u ∧ (∀ r ≤ x, u.reg r = s.reg r) ∧ (∀ r > x, u.reg r = v[r])

/-- spec/20_memory.md R88: FX55 writes the bytes of the very next instruction, and the next cycle fetches the word as
written, big-endian; `k` is where in the stored window PC points after the cycle. -/
def Obligations.StoredBytesAreFetchedByTheNextCycle : Prop :=
  ∀ (s t : State) (w : Word) (x : Reg) (k : Nat) (r r' : Reg), s.mem.wf = true → fetch s = .ok w →
    decode w = .ok (.ldMemVx x) → step s = .next t → s.pc.toNat + 2 = s.i.toNat + k →
    r.val = k → r'.val = k + 1 → r' ≤ x →
    fetch t = .ok (wordOfBytes (s.reg r) (s.reg r'))

/-! ## Display -/

/-- spec/44_display.md R240. -/
def Obligations.ClearScreenUnlightsEveryPixel : Prop :=
  ∀ s : State, ∃ t, exec .cls s = .next t ∧ (∀ x y, pixel t.fb x y = false) ∧ OnlyChanges [.fb] s t

/-- Pixel (px, py) is under a set bit of the sprite of `n` rows at I with its origin at (V[x], V[y])
(spec/44_display.md R242, R243): row r is the byte at I + r, bit 7 - b its column b. -/
def SpriteCovers (policy : Config.DrawEdgePolicy) (x y : Reg) (n : Nat) (s : State) (px : Fin 64) (py : Fin 32) :
    Prop :=
  ∃ r b : Nat, r < n ∧ b < 8 ∧ (s.mem.read (s.i.toNat + r)).getLsbD (7 - b) = true ∧
    match policy with
    | .wrap => px.val = ((s.reg x).toNat % 64 + b) % 64 ∧ py.val = ((s.reg y).toNat % 32 + r) % 32
    | .clip => px.val = (s.reg x).toNat % 64 + b ∧ py.val = (s.reg y).toNat % 32 + r

/-- spec/44_display.md R241-R244, for this hardware's WRAP and for the alternative CLIP: exactly the pixels under a set
sprite bit are inverted, each once, and VF = 1 exactly when one of them was lit before. With n = 0 nothing is read and
VF is 0. A window past the end of memory raises MemoryBoundsError. -/
def Obligations.DrawIsXorWithCollisionFlag : Prop :=
  (∀ (x y : Reg) (n : Fin 16) (s : State), exec (.drw x y n) s = drawWith .wrap x y n s ∧
    (n.val = 0 ∨ s.i.toNat + n.val ≤ 4096 → ∃ t, exec (.drw x y n) s = .next t)) ∧
  ∀ (policy : Config.DrawEdgePolicy) (x y : Reg) (n : Fin 16) (s : State),
    (n.val = 0 ∨ s.i.toNat + n.val ≤ 4096 → ∃ t, drawWith policy x y n s = .next t ∧
      (∀ px py, (SpriteCovers policy x y n.val s px py → pixel t.fb px py = !pixel s.fb px py) ∧
        (¬ SpriteCovers policy x y n.val s px py → pixel t.fb px py = pixel s.fb px py)) ∧
      ((∃ px py, SpriteCovers policy x y n.val s px py ∧ pixel s.fb px py = true) → t.reg regF = 1) ∧
      ((∀ px py, SpriteCovers policy x y n.val s px py → pixel s.fb px py = false) → t.reg regF = 0) ∧
      OnlyChanges [.regs, .fb] s t ∧ OnlyRegs [regF] s t) ∧
    (0 < n.val → 4096 ≤ s.i.toNat + n.val - 1 →
      drawWith policy x y n s = .fault (.memoryBounds (s.pc - 2) .mem (max s.i.toNat 4096)))

/-- The source's collision property (spec/95_test_vectors.md S7, spec/44_display.md R241, R244): the same sprite drawn
again at the same place restores the framebuffer; the first draw finds a collision where it falls on a pixel that was
lit, the second where it falls on one that was not. On a cleared screen the second gives VF = 1 for every sprite with a
set bit; on a screen where every touched pixel was lit it gives 0 (assumption 15). -/
def Obligations.DrawingTwiceRestoresTheScreen : Prop :=
  ∀ (x y : Reg) (n : Fin 16) (s t : State), x ≠ regF → y ≠ regF → exec (.drw x y n) s = .next t →
    ∃ u, exec (.drw x y n) t = .next u ∧ u.fb = s.fb ∧
      (t.reg regF = 1 ↔ ∃ px py, SpriteCovers .wrap x y n.val s px py ∧ pixel s.fb px py = true) ∧
      (u.reg regF = 1 ↔ ∃ px py, SpriteCovers .wrap x y n.val s px py ∧ pixel s.fb px py = false)

/-! ## Timers and keys -/

/-- spec/45_timers_keys.md R260, R262, R263: the handler's transfer; the tick is the cycle's. -/
def Obligations.TimerTransfers : Prop :=
  ∀ (x : Reg) (s : State),
    (∃ t, exec (.ldVxDt x) s = .next t ∧ t.reg x = s.dt ∧ OnlyChanges [.regs] s t ∧ OnlyRegs [x] s t) ∧
    (∃ t, exec (.ldDtVx x) s = .next t ∧ t.dt = s.reg x ∧ OnlyChanges [.dt] s t) ∧
    (∃ t, exec (.ldStVx x) s = .next t ∧ t.st = s.reg x ∧ OnlyChanges [.st] s t)

/-- spec/45_timers_keys.md R261: the least pressed key goes to Vx; with none pressed PC goes back to the instruction, so
that the whole cycle leaves PC where it was and only ticks the timers. -/
def Obligations.WaitForKeyTakesTheLeastKeyOrRepeats : Prop :=
  ∀ (x : Reg) (s : State),
    (∀ k : Fin 16, s.key[k] = true → (∀ j < k, s.key[j] = false) →
      ∃ t, exec (.ldVxK x) s = .next t ∧ (t.reg x).toNat = k.val ∧ OnlyChanges [.regs] s t ∧ OnlyRegs [x] s t) ∧
    ((∀ k : Fin 16, s.key[k] = false) →
      (∃ t, exec (.ldVxK x) s = .next t ∧ t.pc = s.pc - 2 ∧ OnlyChanges [.pc] s t) ∧
      (∀ w, fetch s = .ok w → decode w = .ok (.ldVxK x) →
        ∃ t, step s = .next t ∧ t.dt.toNat = s.dt.toNat - 1 ∧ t.st.toNat = s.st.toNat - 1 ∧
          OnlyChanges [.dt, .st, .draw] s t))

/-! ## The host's ports -/

/-- spec/20_memory.md R91, R92: an image of at most 3584 bytes is copied to [0x200, 0x200 + len) and nothing else
changes; a longer one is LoadError with its length, and nothing is written. -/
def Obligations.LoadCopiesTheImageOrRefusesIt : Prop :=
  ∀ (img : List Byte) (s : State), s.mem.wf = true →
    (img.length ≤ 3584 → ∃ t, transact (.load img) s = (t, .ok) ∧
      (∀ (k : Nat) (h : k < img.length), t.mem.read (0x200 + k) = img[k]) ∧
      OnlyBytes 0x200 img.length s t ∧ OnlyChanges [.mem] s t) ∧
    (3584 < img.length → transact (.load img) s = (s, .err 1 (.loadError img.length)))

/-- spec/10_state.md R47: each key takes its bit and nothing else changes; no cycle changes a key. -/
def Obligations.SetKeysWritesOnlyTheKeypad : Prop :=
  ∀ (k : BitVec 16) (s : State), ∃ t, transact (.setKeys k) s = (t, .ok) ∧
    (∀ j : Fin 16, t.key[j] = k.getLsbD j.val) ∧ OnlyChanges [.key] s t ∧ (∀ u, step s = .next u → u.key = s.key)

/-- spec/10_state.md R48: 2048 entries, pixel (x, y) at y·64 + x, pitch 64, no state changed. -/
def Obligations.ReadFbIsRowMajor : Prop :=
  ∀ s : State, ∃ px : List Bool, transact .readFb s = (s, .pixels px 64) ∧ px.length = 64 * 32 ∧
    ∀ (x : Fin 64) (y : Fin 32), px[y.val * 64 + x.val]? = some (pixel s.fb x y)

/-- spec/10_state.md R46, spec/70_reset_and_hazards.md R310: from any state, `reset` answers `ok` and leaves every piece
of state at its reset value; the state the machine starts in is the same. The font bytes are the spec's own decision D8,
spec/20_memory.md R73. -/
def Obligations.ResetLeavesTheResetState : Prop :=
  ∀ (s t : State), (t = State.reset ∨ transact .reset s = (t, .ok)) →
    (transact .reset s).2 = .ok ∧
    (∀ r, t.reg r = 0) ∧ t.i = 0 ∧ t.pc = 0x200 ∧ (∀ j : Fin 16, t.stack[j] = 0) ∧ t.sp = 0 ∧ t.dt = 0 ∧ t.st = 0 ∧
    (∀ x y, pixel t.fb x y = false) ∧ (∀ k : Fin 16, t.key[k] = false) ∧
    (∀ a, a < 0x050 ∨ 0x0A0 ≤ a → t.mem.read a = 0) ∧
    t.mem.readBytes 0x050 80 =
      [0xF0, 0x90, 0x90, 0x90, 0xF0, 0x20, 0x60, 0x20, 0x20, 0x70, 0xF0, 0x10, 0xF0, 0x80, 0xF0, 0xF0, 0x10, 0xF0, 0x10,
       0xF0, 0x90, 0x90, 0xF0, 0x10, 0x10, 0xF0, 0x80, 0xF0, 0x10, 0xF0, 0xF0, 0x80, 0xF0, 0x90, 0xF0, 0xF0, 0x10, 0x20,
       0x40, 0x40, 0xF0, 0x90, 0xF0, 0x90, 0xF0, 0xF0, 0x90, 0xF0, 0x10, 0xF0, 0xF0, 0x90, 0xF0, 0x90, 0x90, 0xE0, 0x90,
       0xE0, 0x90, 0xE0, 0xF0, 0x80, 0x80, 0x80, 0xF0, 0xE0, 0x90, 0x90, 0x90, 0xE0, 0xF0, 0x80, 0xF0, 0x80, 0xF0, 0xF0,
       0x80, 0xF0, 0x80, 0x80]

/-! ## What is not observed -/

/-- The draw is read only by CXKK (spec/40_cycle.md R130, spec/10_state.md R44): for any other word two cycles that
differ in the draw alone end alike. That such a cycle counts no free draw and leaves none brought is the model's choice
(assumption 1). -/
def Obligations.DrawIsReadOnlyByRnd : Prop :=
  ∀ (s : State) (w : Word) (a b : Byte), fetch s = .ok w → (∀ x kk, decode w ≠ .ok (.rnd x kk)) →
    cyclePort a s = cyclePort b s ∧ ∀ t, cyclePort a s = .next t → t.draws = s.draws ∧ t.rndIn = none

/-- Key states are read only by EX9E, EXA1 and FX0A (spec/10_state.md R42): any other word runs the same whatever keys
the host set. -/
def Obligations.KeypadIsReadOnlyByKeyInstructions : Prop :=
  ∀ (s : State) (w : Word) (k : BitVec 16), fetch s = .ok w →
    (∀ x, decode w ≠ .ok (.skp x) ∧ decode w ≠ .ok (.sknp x) ∧ decode w ≠ .ok (.ldVxK x)) →
    (∀ t, step s = .next t → step (setKeysPort k s) = .next (setKeysPort k t)) ∧
    (∀ e, step s = .fault e → step (setKeysPort k s) = .fault e)

/-- No instruction reads ST (spec/10_state.md R40, spec/45_timers_keys.md R264): two states that differ in ST alone stay
so, and fail alike. -/
def Obligations.SoundTimerIsNeverRead : Prop :=
  ∀ (s : State) (b : Byte),
    (∀ t, step s = .next t → ∃ c, step { s with st := b } = .next { t with st := c }) ∧
    (∀ e, step s = .fault e → step { s with st := b } = .fault e)

/-- Two states that agree on everything but stack entries at SP or above. -/
def SameButStaleEntries (s s' : State) : Prop :=
  s' = { s with stack := s'.stack } ∧ ∀ j : Fin 16, j.val < s.sp.val → s'.stack[j] = s.stack[j]

/-- Stale stack entries are unobservable (spec/10_state.md R38): two states that differ only in entries at SP or above
answer every cycle alike and stay so related. -/
def Obligations.StaleStackEntriesAreUnobservable : Prop :=
  ∀ (s s' : State), SameButStaleEntries s s' →
    (∀ t, step s = .next t → ∃ t', step s' = .next t' ∧ SameButStaleEntries t t') ∧
    (∀ e, step s = .fault e → step s' = .fault e)

/-! ## Invariants -/

/-- The invariant holds in the state after reset. -/
def Obligations.InvariantHoldsAtReset : Prop := Inv State.reset

/-- Every cycle keeps the invariant, from every state that meets it: memory in canonical form and inside [0, 4096), PC at
most 0x10FE (spec/10_state.md R36), every stack entry at most 0x1000 (spec/41_control_flow.md R150). -/
def Obligations.StepKeepsTheInvariant : Prop :=
  ∀ s t : State, Inv s → step s = .next t → Inv t

/-- Every transaction of the host keeps the invariant, and so does every session, in whatever order the host issues its
transactions (spec/20_memory.md R84). -/
def Obligations.HostSessionsKeepTheInvariant : Prop :=
  ∀ (ts : List Transaction) (s : State), Inv s → Inv (session ts s).1

/-- A timer set by FX15 or FX18 counts down one a cycle and never goes below 0 (spec/40_cycle.md R136,
spec/90_conflicts.md C11): over a session of cycles that all return `ok` and whose words write no timer, DT and ST fall
by the number of cycles, floor at 0. -/
def Obligations.TimersReachZeroAndStay : Prop :=
  ∀ (n : Nat) (run : Nat → State), (∀ k < n, step (run k) = .next (run (k + 1))) →
    (∀ k < n, ∀ w x, fetch (run k) = .ok w → decode w ≠ .ok (.ldDtVx x) ∧ decode w ≠ .ok (.ldStVx x)) →
    (run n).dt.toNat = (run 0).dt.toNat - n ∧ (run n).st.toNat = (run 0).st.toNat - n
end

