-- ==== Sys2Proof/Laws/Decode.lean ====
section
/-! SUPPORT. The numbers behind words, nibbles and bytes, the fields of an encoded word, and the bytes of a word. -/

namespace Sys2Proof

/-! ## The number of a word -/

theorem toNat_wordOfBytes (hi lo : Byte) : (wordOfBytes hi lo).toNat = hi.toNat * 256 + lo.toNat := by
  have h : (wordOfBytes hi lo).toNat = hi.toNat <<< 8 ||| lo.toNat := BitVec.toNat_append hi lo
  rw [h, ← Nat.shiftLeft_add_eq_or_of_lt lo.isLt, Nat.shiftLeft_eq]

theorem toNat_encodeNnn (op : BitVec 4) (nnn : Addr12) : (encodeNnn op nnn).toNat = op.toNat * 4096 + nnn.toNat := by
  have h : (encodeNnn op nnn).toNat = op.toNat <<< 12 ||| nnn.toNat := BitVec.toNat_append op nnn
  rw [h, ← Nat.shiftLeft_add_eq_or_of_lt nnn.isLt, Nat.shiftLeft_eq]

theorem toNat_encodeXkk (op : BitVec 4) (x : Reg) (kk : Byte) :
    (encodeXkk op x kk).toNat = op.toNat * 4096 + x.val * 256 + kk.toNat := by
  have h1 : (op ++ nibble x).toNat = op.toNat <<< 4 ||| x.val := BitVec.toNat_append op (nibble x)
  have h : (encodeXkk op x kk).toNat = (op ++ nibble x).toNat <<< 8 ||| kk.toNat :=
    BitVec.toNat_append (op ++ nibble x) kk
  rw [h, ← Nat.shiftLeft_add_eq_or_of_lt kk.isLt, h1, ← Nat.shiftLeft_add_eq_or_of_lt x.isLt, Nat.shiftLeft_eq,
    Nat.shiftLeft_eq]
  omega

theorem toNat_encodeXyn (op : BitVec 4) (x y : Reg) (n : BitVec 4) :
    (encodeXyn op x y n).toNat = op.toNat * 4096 + x.val * 256 + y.val * 16 + n.toNat := by
  have h1 : (op ++ nibble x).toNat = op.toNat <<< 4 ||| x.val := BitVec.toNat_append op (nibble x)
  have h2 : (op ++ nibble x ++ nibble y).toNat = (op ++ nibble x).toNat <<< 4 ||| y.val :=
    BitVec.toNat_append (op ++ nibble x) (nibble y)
  have h : (encodeXyn op x y n).toNat = (op ++ nibble x ++ nibble y).toNat <<< 4 ||| n.toNat :=
    BitVec.toNat_append (op ++ nibble x ++ nibble y) n
  rw [h, ← Nat.shiftLeft_add_eq_or_of_lt n.isLt, h2, ← Nat.shiftLeft_add_eq_or_of_lt y.isLt, h1,
    ← Nat.shiftLeft_add_eq_or_of_lt x.isLt, Nat.shiftLeft_eq, Nat.shiftLeft_eq, Nat.shiftLeft_eq]
  omega

/-! ## The fields as numbers (spec/30_encoding.md R101) -/

theorem toNat_nibbleAt (w : Word) (lo : Nat) : (nibbleAt w lo).toNat = w.toNat / 2 ^ lo % 16 := by
  simp [nibbleAt, Nat.shiftRight_eq_div_pow]

theorem val_regAt (w : Word) (lo : Nat) : (regAt w lo).val = w.toNat / 2 ^ lo % 16 := toNat_nibbleAt w lo

theorem toNat_fieldKk (w : Word) : (fieldKk w).toNat = w.toNat % 256 := by simp [fieldKk]

theorem toNat_fieldNnn (w : Word) : (fieldNnn w).toNat = w.toNat % 4096 := by simp [fieldNnn]

theorem toNat_highByte (w : Word) : (highByte w).toNat = w.toNat / 256 := by
  have := w.isLt
  simp only [highByte, BitVec.extractLsb'_toNat, Nat.shiftRight_eq_div_pow]
  omega

theorem toNat_lowByte (w : Word) : (lowByte w).toNat = w.toNat % 256 := by simp [lowByte]

/-! ## Fields of an encoded word -/

section Fields

variable (op : BitVec 4) (x y : Reg) (kk : Byte) (nnn : Addr12) (n : BitVec 4)

theorem nibble_eq_of_val {w : Word} {lo : Nat} {b : BitVec 4} (h : w.toNat / 2 ^ lo % 16 = b.toNat) :
    nibbleAt w lo = b := BitVec.eq_of_toNat_eq ((toNat_nibbleAt w lo).trans h)

theorem reg_eq_of_val {w : Word} {lo : Nat} {r : Reg} (h : w.toNat / 2 ^ lo % 16 = r.val) : regAt w lo = r :=
  Fin.ext ((val_regAt w lo).trans h)

@[simp] theorem fieldOp_encodeNnn : fieldOp (encodeNnn op nnn) = op :=
  nibble_eq_of_val (by rw [toNat_encodeNnn]; omega)

@[simp] theorem fieldNnn_encodeNnn : fieldNnn (encodeNnn op nnn) = nnn :=
  BitVec.eq_of_toNat_eq (by rw [toNat_fieldNnn, toNat_encodeNnn]; omega)

@[simp] theorem fieldOp_encodeXkk : fieldOp (encodeXkk op x kk) = op :=
  nibble_eq_of_val (by rw [toNat_encodeXkk]; omega)

@[simp] theorem fieldX_encodeXkk : fieldX (encodeXkk op x kk) = x :=
  reg_eq_of_val (by rw [toNat_encodeXkk]; omega)

@[simp] theorem fieldKk_encodeXkk : fieldKk (encodeXkk op x kk) = kk :=
  BitVec.eq_of_toNat_eq (by rw [toNat_fieldKk, toNat_encodeXkk]; omega)

/-- The low nibble of an X-KK word is the low nibble of its byte. -/
theorem fieldN_encodeXkk : fieldN (encodeXkk op x kk) = kk.extractLsb' 0 4 :=
  nibble_eq_of_val (by rw [toNat_encodeXkk]; simp; omega)

@[simp] theorem fieldOp_encodeXyn : fieldOp (encodeXyn op x y n) = op :=
  nibble_eq_of_val (by rw [toNat_encodeXyn]; omega)

@[simp] theorem fieldX_encodeXyn : fieldX (encodeXyn op x y n) = x :=
  reg_eq_of_val (by rw [toNat_encodeXyn]; omega)

@[simp] theorem fieldY_encodeXyn : fieldY (encodeXyn op x y n) = y :=
  reg_eq_of_val (by rw [toNat_encodeXyn]; omega)

@[simp] theorem fieldN_encodeXyn : fieldN (encodeXyn op x y n) = n :=
  nibble_eq_of_val (by rw [toNat_encodeXyn]; omega)

@[simp] theorem fieldCount_encodeXyn (k : Fin 16) : fieldCount (encodeXyn op x y (nibble k)) = k :=
  reg_eq_of_val (by rw [toNat_encodeXyn]; simp [nibble]; omega)

end Fields

/-! ## A word from its fields -/

theorem encodeNnn_fields (w : Word) : encodeNnn (fieldOp w) (fieldNnn w) = w :=
  BitVec.eq_of_toNat_eq (by
    have := w.isLt
    rw [toNat_encodeNnn, fieldOp, toNat_nibbleAt, toNat_fieldNnn]; omega)

theorem encodeXkk_fields (w : Word) : encodeXkk (fieldOp w) (fieldX w) (fieldKk w) = w :=
  BitVec.eq_of_toNat_eq (by
    have := w.isLt
    rw [toNat_encodeXkk, fieldOp, toNat_nibbleAt, fieldX, val_regAt, toNat_fieldKk]; omega)

theorem encodeXyn_fields (w : Word) : encodeXyn (fieldOp w) (fieldX w) (fieldY w) (fieldN w) = w :=
  BitVec.eq_of_toNat_eq (by
    have := w.isLt
    rw [toNat_encodeXyn, fieldOp, toNat_nibbleAt, fieldX, val_regAt, fieldY, val_regAt, fieldN, toNat_nibbleAt]
    omega)

/-! ## The bytes of a word (spec/20_memory.md R75) -/

@[simp] theorem wordOfBytes_highByte_lowByte (w : Word) : wordOfBytes (highByte w) (lowByte w) = w :=
  BitVec.eq_of_toNat_eq (by rw [toNat_wordOfBytes, toNat_highByte, toNat_lowByte]; omega)

@[simp] theorem highByte_wordOfBytes (hi lo : Byte) : highByte (wordOfBytes hi lo) = hi :=
  BitVec.eq_of_toNat_eq (by rw [toNat_highByte, toNat_wordOfBytes]; omega)

@[simp] theorem lowByte_wordOfBytes (hi lo : Byte) : lowByte (wordOfBytes hi lo) = lo :=
  BitVec.eq_of_toNat_eq (by rw [toNat_lowByte, toNat_wordOfBytes]; omega)

theorem decodeBytes_bytesOfWord (w : Word) (rest : List Byte) :
    decodeBytes (bytesOfWord w ++ rest) = (decode w).map (fun i => (i, rest)) := by
  simp only [bytesOfWord, List.cons_append, List.nil_append, decodeBytes, wordOfBytes_highByte_lowByte]
  cases decode w <;> rfl

/-! ## What a decoded word is -/

theorem decode0_eq_ok {w : Word} {i : Instr} :
    decode0 w = .ok i ↔ (fieldN w = 0x0 ∧ i = .cls) ∨ (fieldN w = 0xE ∧ i = .ret) := by
  unfold decode0; split_ifs <;> simp_all [eq_comm (b := i)]

theorem decode8_eq_ok {w : Word} {i : Instr} :
    decode8 w = .ok i ↔
      (fieldN w = 0x0 ∧ i = .ldReg (fieldX w) (fieldY w)) ∨ (fieldN w = 0x1 ∧ i = .orReg (fieldX w) (fieldY w)) ∨
      (fieldN w = 0x2 ∧ i = .andReg (fieldX w) (fieldY w)) ∨ (fieldN w = 0x3 ∧ i = .xorReg (fieldX w) (fieldY w)) ∨
      (fieldN w = 0x4 ∧ i = .addReg (fieldX w) (fieldY w)) ∨ (fieldN w = 0x5 ∧ i = .subReg (fieldX w) (fieldY w)) ∨
      (fieldN w = 0x6 ∧ i = .shr (fieldX w) (fieldY w)) ∨ (fieldN w = 0x7 ∧ i = .subnReg (fieldX w) (fieldY w)) ∨
      (fieldN w = 0xE ∧ i = .shl (fieldX w) (fieldY w)) := by
  unfold decode8; split_ifs <;> simp_all [eq_comm (b := i)]

theorem decodeE_eq_ok {w : Word} {i : Instr} :
    decodeE w = .ok i ↔ (fieldN w = 0xE ∧ i = .skp (fieldX w)) ∨ (fieldN w = 0x1 ∧ i = .sknp (fieldX w)) := by
  unfold decodeE; split_ifs <;> simp_all [eq_comm (b := i)]

theorem decodeF_eq_ok {w : Word} {i : Instr} :
    decodeF w = .ok i ↔
      (fieldKk w = 0x07 ∧ i = .ldVxDt (fieldX w)) ∨ (fieldKk w = 0x0A ∧ i = .ldVxK (fieldX w)) ∨
      (fieldKk w = 0x15 ∧ i = .ldDtVx (fieldX w)) ∨ (fieldKk w = 0x18 ∧ i = .ldStVx (fieldX w)) ∨
      (fieldKk w = 0x1E ∧ i = .addI (fieldX w)) ∨ (fieldKk w = 0x29 ∧ i = .ldF (fieldX w)) ∨
      (fieldKk w = 0x33 ∧ i = .ldB (fieldX w)) ∨ (fieldKk w = 0x55 ∧ i = .ldMemVx (fieldX w)) ∨
      (fieldKk w = 0x65 ∧ i = .ldVxMem (fieldX w)) := by
  unfold decodeF; split_ifs <;> simp_all [eq_comm (b := i)]

/-- The sixteen values of a primary selector. -/
theorem op_cases (b : BitVec 4) :
    b = 0 ∨ b = 1 ∨ b = 2 ∨ b = 3 ∨ b = 4 ∨ b = 5 ∨ b = 6 ∨ b = 7 ∨ b = 8 ∨ b = 9 ∨ b = 10 ∨
    b = 11 ∨ b = 12 ∨ b = 13 ∨ b = 14 ∨ b = 15 := by revert b; decide

theorem decode_eq_ok {w : Word} {i : Instr} :
    decode w = .ok i ↔
      (fieldOp w = 0x0 ∧ decode0 w = .ok i) ∨ (fieldOp w = 0x1 ∧ i = .jpAddr (fieldNnn w)) ∨
      (fieldOp w = 0x2 ∧ i = .callAddr (fieldNnn w)) ∨ (fieldOp w = 0x3 ∧ i = .seKk (fieldX w) (fieldKk w)) ∨
      (fieldOp w = 0x4 ∧ i = .sneKk (fieldX w) (fieldKk w)) ∨ (fieldOp w = 0x5 ∧ i = .seReg (fieldX w) (fieldY w)) ∨
      (fieldOp w = 0x6 ∧ i = .ldKk (fieldX w) (fieldKk w)) ∨ (fieldOp w = 0x7 ∧ i = .addKk (fieldX w) (fieldKk w)) ∨
      (fieldOp w = 0x8 ∧ decode8 w = .ok i) ∨ (fieldOp w = 0x9 ∧ i = .sneReg (fieldX w) (fieldY w)) ∨
      (fieldOp w = 0xA ∧ i = .ldI (fieldNnn w)) ∨ (fieldOp w = 0xB ∧ i = .jpV0 (fieldNnn w)) ∨
      (fieldOp w = 0xC ∧ i = .rnd (fieldX w) (fieldKk w)) ∨
      (fieldOp w = 0xD ∧ i = .drw (fieldX w) (fieldY w) (fieldCount w)) ∨ (fieldOp w = 0xE ∧ decodeE w = .ok i) ∨
      (fieldOp w = 0xF ∧ decodeF w = .ok i) := by
  unfold decode
  rcases op_cases (fieldOp w) with h | h | h | h | h | h | h | h | h | h | h | h | h | h | h | h <;>
    simp only [h] <;> simp [eq_comm (b := i)]

end Sys2Proof
end

