-- ==== Sys2Proof/Laws/Memory.lean ====
section
/-! SUPPORT. The laws of memory: a read after a write, the bytes a run of writes leaves, and the canonical form that every
write keeps. -/

namespace Sys2Proof.Machine.Memory

@[simp] theorem read_nil (a : Nat) : read [] a = resetByte a := rfl

theorem read_cons (b : Nat) (x : Byte) (rest : Memory) (a : Nat) :
    read ((b, x) :: rest) a = if b = a then x else read rest a := rfl

@[simp] theorem wfFrom_nil (lo : Nat) : wfFrom lo [] = true := rfl

theorem wfFrom_cons {lo a : Nat} {x : Byte} {rest : Memory} :
    wfFrom lo ((a, x) :: rest) = true ↔
      lo ≤ a ∧ a < Config.memSize ∧ x ≠ resetByte a ∧ wfFrom (a + 1) rest = true := by
  simp [wfFrom, and_assoc]

theorem wfFrom_mono {lo lo' : Nat} {m : Memory} (h : wfFrom lo' m = true) (hl : lo ≤ lo') : wfFrom lo m = true := by
  cases m with
  | nil => rfl
  | cons c rest => rw [wfFrom_cons] at h ⊢; exact ⟨by omega, h.2⟩

/-- An address below every listed one reads as reset left it. -/
theorem read_below {lo a : Nat} {m : Memory} (h : wfFrom lo m = true) (ha : a < lo) : read m a = resetByte a := by
  induction m generalizing lo with
  | nil => rfl
  | cons c rest ih =>
    obtain ⟨b, x⟩ := c
    obtain ⟨hb, -, -, hr⟩ := wfFrom_cons.1 h
    rw [read_cons, if_neg (by omega)]
    exact ih hr (by omega)

/-- A write keeps the canonical form. -/
theorem wfFrom_write {lo a : Nat} {m : Memory} (x : Byte) (h : wfFrom lo m = true) (hl : lo ≤ a)
    (ha : a < Config.memSize) : wfFrom lo (write m a x) = true := by
  induction m generalizing lo with
  | nil =>
    unfold write
    split
    · rfl
    · exact wfFrom_cons.2 ⟨hl, ha, ‹_›, rfl⟩
  | cons c rest ih =>
    obtain ⟨b, y⟩ := c
    obtain ⟨hb, hbm, hy, hr⟩ := wfFrom_cons.1 h
    have above : wfFrom (a + 1) (if b = a then rest else (b, y) :: rest) = true ∨ b < a := by
      rcases Nat.lt_trichotomy b a with hlt | rfl | hgt
      · exact .inr hlt
      · simp [hr]
      · left
        rw [if_neg (by omega)]
        exact wfFrom_cons.2 ⟨by omega, hbm, hy, hr⟩
    unfold write
    split
    · exact wfFrom_cons.2 ⟨hb, hbm, hy, ih hr (by omega)⟩
    · have habove := above.resolve_right ‹_›
      dsimp only
      split
      · exact wfFrom_mono habove (by omega)
      · exact wfFrom_cons.2 ⟨hl, ha, ‹_›, habove⟩

theorem wf_write {m : Memory} (a : Nat) (x : Byte) (h : m.wf = true) (ha : a < Config.memSize) :
    (m.write a x).wf = true := wfFrom_write x h (Nat.zero_le _) ha

theorem wf_writeBytes {m : Memory} (a : Nat) (xs : List Byte) (h : m.wf = true) (ha : a + xs.length ≤ Config.memSize) :
    (m.writeBytes a xs).wf = true := by
  induction xs generalizing m a with
  | nil => exact h
  | cons x rest ih =>
    rw [List.length_cons] at ha
    exact ih (a + 1) (wf_write a x h (by omega)) (by omega)

/-- A read after a write to the same address gives the byte written. -/
theorem read_write_same {m : Memory} (a : Nat) (x : Byte) (h : m.wf = true) : (m.write a x).read a = x := by
  suffices ∀ lo, wfFrom lo m = true → (m.write a x).read a = x from this 0 h
  clear h
  intro lo h
  induction m generalizing lo with
  | nil => unfold write; split <;> simp_all [read]
  | cons c rest ih =>
    obtain ⟨b, y⟩ := c
    obtain ⟨-, -, -, hr⟩ := wfFrom_cons.1 h
    unfold write
    split
    · rw [read_cons, if_neg (by omega)]; exact ih _ hr
    · dsimp only
      split
      · rename_i hx
        split
        · subst_vars; exact read_below hr (by omega)
        · rw [read_cons, if_neg ‹_›, hx]; exact read_below hr (by omega)
      · rw [read_cons, if_pos rfl]

/-- A write leaves every other address alone, in canonical form or not. -/
theorem read_write_other {m : Memory} {a b : Nat} (x : Byte) (h : b ≠ a) : (m.write a x).read b = m.read b := by
  induction m with
  | nil => unfold write; split <;> simp [read_cons, h.symm]
  | cons c rest ih =>
    obtain ⟨d, y⟩ := c
    unfold write
    split
    · simp only [read_cons, ih]
    · have above : read (if d = a then rest else (d, y) :: rest) b = read ((d, y) :: rest) b := by
        split
        · subst_vars; rw [read_cons, if_neg h.symm]
        · rfl
      dsimp only
      split
      · exact above
      · rw [read_cons, if_neg h.symm, above]

theorem read_writeBytes_outside {m : Memory} {a b : Nat} (xs : List Byte) (h : b < a ∨ a + xs.length ≤ b) :
    (m.writeBytes a xs).read b = m.read b := by
  induction xs generalizing m a with
  | nil => rfl
  | cons x rest ih =>
    rw [List.length_cons] at h
    exact (ih (m := m.write a x) (a := a + 1) (by omega)).trans (read_write_other x (by omega))

/-- The k-th byte written reads back. -/
theorem read_writeBytes_inside {m : Memory} {a k : Nat} (xs : List Byte) (h : m.wf = true) (hk : k < xs.length)
    (ha : a + xs.length ≤ Config.memSize) : (m.writeBytes a xs).read (a + k) = xs[k] := by
  induction xs generalizing m a k with
  | nil => simp at hk
  | cons x rest ih =>
    rw [List.length_cons] at hk ha
    have hw := wf_write a x h (by omega)
    cases k with
    | zero =>
      exact (read_writeBytes_outside (m := m.write a x) rest (.inl (by omega))).trans (read_write_same a x h)
    | succ k =>
      have := ih (m := m.write a x) (a := a + 1) (k := k) hw (by omega) (by omega)
      rw [show a + (k + 1) = a + 1 + k by omega]
      exact this

@[simp] theorem length_readBytes (m : Memory) (a n : Nat) : (m.readBytes a n).length = n := by
  induction n generalizing a with
  | zero => rfl
  | succ n ih => simp [readBytes, ih]

theorem getElem_readBytes {m : Memory} {a n k : Nat} (h : k < (m.readBytes a n).length) :
    (m.readBytes a n)[k] = m.read (a + k) := by
  induction n generalizing a k with
  | zero => simp [readBytes] at h
  | succ n ih =>
    cases k with
    | zero => rfl
    | succ k =>
      rw [length_readBytes] at h
      simp only [readBytes, List.getElem_cons_succ]
      rw [ih (by simpa using by omega)]
      congr 1
      omega

/-- Two memories in canonical form that read alike are the same list. -/
theorem eq_of_read_eq {m m' : Memory} (h : m.wf = true) (h' : m'.wf = true) (e : ∀ a, m.read a = m'.read a) :
    m = m' := by
  suffices ∀ lo, wfFrom lo m = true → wfFrom lo m' = true → m = m' from this 0 h h'
  clear h h'
  induction m generalizing m' with
  | nil =>
    intro lo _ h'
    cases m' with
    | nil => rfl
    | cons c rest =>
      obtain ⟨b, y⟩ := c
      have hy := (wfFrom_cons.1 h').2.2.1
      exact absurd (by simpa [read_cons] using (e b).symm) hy
  | cons c rest ih =>
    intro lo h h'
    obtain ⟨a, x⟩ := c
    obtain ⟨hla, -, hx, hr⟩ := wfFrom_cons.1 h
    cases m' with
    | nil => exact absurd (by simpa [read_cons] using e a) hx
    | cons c' rest' =>
      obtain ⟨b, y⟩ := c'
      obtain ⟨hlb, -, hy, hr'⟩ := wfFrom_cons.1 h'
      have hab : a = b := by
        rcases Nat.lt_trichotomy a b with hlt | rfl | hgt
        · have := e a
          rw [read_cons, if_pos rfl, read_cons, if_neg (by omega), read_below hr' (by omega)] at this
          exact absurd this hx
        · rfl
        · have := e b
          rw [read_cons, if_neg (by omega), read_cons, if_pos rfl, read_below hr (by omega)] at this
          exact absurd this.symm hy
      subst hab
      have hxy : x = y := by simpa [read_cons] using e a
      subst hxy
      congr 1
      refine ih (fun d => ?_) _ hr hr'
      rcases Nat.lt_or_ge d (a + 1) with hd | hd
      · rw [read_below hr hd, read_below hr' hd]
      · have := e d
        rwa [read_cons, read_cons, if_neg (by omega), if_neg (by omega)] at this

end Sys2Proof.Machine.Memory
end

