-- ==== Sys2Proof/Laws/State.lean ====
section
/-! SUPPORT. One lemma per field per update of the state, so that no proof unfolds a record update, and what reading a
register gives after each update. -/

namespace Sys2Proof.Machine.State

@[simp] theorem setReg_v (s : State) (x : Reg) (b : Byte) : (s.setReg x b).v = s.v.set x b := rfl
@[simp] theorem setReg_i (s : State) (x : Reg) (b : Byte) : (s.setReg x b).i = s.i := rfl
@[simp] theorem setReg_pc (s : State) (x : Reg) (b : Byte) : (s.setReg x b).pc = s.pc := rfl
@[simp] theorem setReg_stack (s : State) (x : Reg) (b : Byte) : (s.setReg x b).stack = s.stack := rfl
@[simp] theorem setReg_sp (s : State) (x : Reg) (b : Byte) : (s.setReg x b).sp = s.sp := rfl
@[simp] theorem setReg_dt (s : State) (x : Reg) (b : Byte) : (s.setReg x b).dt = s.dt := rfl
@[simp] theorem setReg_st (s : State) (x : Reg) (b : Byte) : (s.setReg x b).st = s.st := rfl
@[simp] theorem setReg_mem (s : State) (x : Reg) (b : Byte) : (s.setReg x b).mem = s.mem := rfl
@[simp] theorem setReg_fb (s : State) (x : Reg) (b : Byte) : (s.setReg x b).fb = s.fb := rfl
@[simp] theorem setReg_key (s : State) (x : Reg) (b : Byte) : (s.setReg x b).key = s.key := rfl
@[simp] theorem setReg_rndIn (s : State) (x : Reg) (b : Byte) : (s.setReg x b).rndIn = s.rndIn := rfl
@[simp] theorem setReg_draws (s : State) (x : Reg) (b : Byte) : (s.setReg x b).draws = s.draws := rfl

@[simp] theorem setRegFlag_v (s : State) (x : Reg) (b f : Byte) : (s.setRegFlag x b f).v = (s.v.set x b).set regF f := rfl
@[simp] theorem setRegFlag_i (s : State) (x : Reg) (b f : Byte) : (s.setRegFlag x b f).i = s.i := rfl
@[simp] theorem setRegFlag_pc (s : State) (x : Reg) (b f : Byte) : (s.setRegFlag x b f).pc = s.pc := rfl
@[simp] theorem setRegFlag_stack (s : State) (x : Reg) (b f : Byte) : (s.setRegFlag x b f).stack = s.stack := rfl
@[simp] theorem setRegFlag_sp (s : State) (x : Reg) (b f : Byte) : (s.setRegFlag x b f).sp = s.sp := rfl
@[simp] theorem setRegFlag_dt (s : State) (x : Reg) (b f : Byte) : (s.setRegFlag x b f).dt = s.dt := rfl
@[simp] theorem setRegFlag_st (s : State) (x : Reg) (b f : Byte) : (s.setRegFlag x b f).st = s.st := rfl
@[simp] theorem setRegFlag_mem (s : State) (x : Reg) (b f : Byte) : (s.setRegFlag x b f).mem = s.mem := rfl
@[simp] theorem setRegFlag_fb (s : State) (x : Reg) (b f : Byte) : (s.setRegFlag x b f).fb = s.fb := rfl
@[simp] theorem setRegFlag_key (s : State) (x : Reg) (b f : Byte) : (s.setRegFlag x b f).key = s.key := rfl
@[simp] theorem setRegFlag_rndIn (s : State) (x : Reg) (b f : Byte) : (s.setRegFlag x b f).rndIn = s.rndIn := rfl
@[simp] theorem setRegFlag_draws (s : State) (x : Reg) (b f : Byte) : (s.setRegFlag x b f).draws = s.draws := rfl

@[simp] theorem setI_v (s : State) (w : Word) : (s.setI w).v = s.v := rfl
@[simp] theorem setI_i (s : State) (w : Word) : (s.setI w).i = w := rfl
@[simp] theorem setI_pc (s : State) (w : Word) : (s.setI w).pc = s.pc := rfl
@[simp] theorem setI_stack (s : State) (w : Word) : (s.setI w).stack = s.stack := rfl
@[simp] theorem setI_sp (s : State) (w : Word) : (s.setI w).sp = s.sp := rfl
@[simp] theorem setI_dt (s : State) (w : Word) : (s.setI w).dt = s.dt := rfl
@[simp] theorem setI_st (s : State) (w : Word) : (s.setI w).st = s.st := rfl
@[simp] theorem setI_mem (s : State) (w : Word) : (s.setI w).mem = s.mem := rfl
@[simp] theorem setI_fb (s : State) (w : Word) : (s.setI w).fb = s.fb := rfl
@[simp] theorem setI_key (s : State) (w : Word) : (s.setI w).key = s.key := rfl
@[simp] theorem setI_rndIn (s : State) (w : Word) : (s.setI w).rndIn = s.rndIn := rfl
@[simp] theorem setI_draws (s : State) (w : Word) : (s.setI w).draws = s.draws := rfl

@[simp] theorem setPc_v (s : State) (w : Word) : (s.setPc w).v = s.v := rfl
@[simp] theorem setPc_i (s : State) (w : Word) : (s.setPc w).i = s.i := rfl
@[simp] theorem setPc_pc (s : State) (w : Word) : (s.setPc w).pc = w := rfl
@[simp] theorem setPc_stack (s : State) (w : Word) : (s.setPc w).stack = s.stack := rfl
@[simp] theorem setPc_sp (s : State) (w : Word) : (s.setPc w).sp = s.sp := rfl
@[simp] theorem setPc_dt (s : State) (w : Word) : (s.setPc w).dt = s.dt := rfl
@[simp] theorem setPc_st (s : State) (w : Word) : (s.setPc w).st = s.st := rfl
@[simp] theorem setPc_mem (s : State) (w : Word) : (s.setPc w).mem = s.mem := rfl
@[simp] theorem setPc_fb (s : State) (w : Word) : (s.setPc w).fb = s.fb := rfl
@[simp] theorem setPc_key (s : State) (w : Word) : (s.setPc w).key = s.key := rfl
@[simp] theorem setPc_rndIn (s : State) (w : Word) : (s.setPc w).rndIn = s.rndIn := rfl
@[simp] theorem setPc_draws (s : State) (w : Word) : (s.setPc w).draws = s.draws := rfl

@[simp] theorem advance_v (s : State) : (s.advance).v = s.v := rfl
@[simp] theorem advance_i (s : State) : (s.advance).i = s.i := rfl
@[simp] theorem advance_pc (s : State) : (s.advance).pc = s.pc + 2 := rfl
@[simp] theorem advance_stack (s : State) : (s.advance).stack = s.stack := rfl
@[simp] theorem advance_sp (s : State) : (s.advance).sp = s.sp := rfl
@[simp] theorem advance_dt (s : State) : (s.advance).dt = s.dt := rfl
@[simp] theorem advance_st (s : State) : (s.advance).st = s.st := rfl
@[simp] theorem advance_mem (s : State) : (s.advance).mem = s.mem := rfl
@[simp] theorem advance_fb (s : State) : (s.advance).fb = s.fb := rfl
@[simp] theorem advance_key (s : State) : (s.advance).key = s.key := rfl
@[simp] theorem advance_rndIn (s : State) : (s.advance).rndIn = s.rndIn := rfl
@[simp] theorem advance_draws (s : State) : (s.advance).draws = s.draws := rfl

@[simp] theorem skipIf_v (s : State) (c : Bool) : (s.skipIf c).v = s.v := by
  cases c <;> rfl
@[simp] theorem skipIf_i (s : State) (c : Bool) : (s.skipIf c).i = s.i := by
  cases c <;> rfl
@[simp] theorem skipIf_pc (s : State) (c : Bool) : (s.skipIf c).pc = (if c then s.pc + 2 else s.pc) := by
  cases c <;> rfl
@[simp] theorem skipIf_stack (s : State) (c : Bool) : (s.skipIf c).stack = s.stack := by
  cases c <;> rfl
@[simp] theorem skipIf_sp (s : State) (c : Bool) : (s.skipIf c).sp = s.sp := by
  cases c <;> rfl
@[simp] theorem skipIf_dt (s : State) (c : Bool) : (s.skipIf c).dt = s.dt := by
  cases c <;> rfl
@[simp] theorem skipIf_st (s : State) (c : Bool) : (s.skipIf c).st = s.st := by
  cases c <;> rfl
@[simp] theorem skipIf_mem (s : State) (c : Bool) : (s.skipIf c).mem = s.mem := by
  cases c <;> rfl
@[simp] theorem skipIf_fb (s : State) (c : Bool) : (s.skipIf c).fb = s.fb := by
  cases c <;> rfl
@[simp] theorem skipIf_key (s : State) (c : Bool) : (s.skipIf c).key = s.key := by
  cases c <;> rfl
@[simp] theorem skipIf_rndIn (s : State) (c : Bool) : (s.skipIf c).rndIn = s.rndIn := by
  cases c <;> rfl
@[simp] theorem skipIf_draws (s : State) (c : Bool) : (s.skipIf c).draws = s.draws := by
  cases c <;> rfl

@[simp] theorem endCycle_v (s : State) : (endCycle s).v = s.v := rfl
@[simp] theorem endCycle_i (s : State) : (endCycle s).i = s.i := rfl
@[simp] theorem endCycle_pc (s : State) : (endCycle s).pc = s.pc := rfl
@[simp] theorem endCycle_stack (s : State) : (endCycle s).stack = s.stack := rfl
@[simp] theorem endCycle_sp (s : State) : (endCycle s).sp = s.sp := rfl
@[simp] theorem endCycle_dt (s : State) : (endCycle s).dt = tickTimer s.dt := rfl
@[simp] theorem endCycle_st (s : State) : (endCycle s).st = tickTimer s.st := rfl
@[simp] theorem endCycle_mem (s : State) : (endCycle s).mem = s.mem := rfl
@[simp] theorem endCycle_fb (s : State) : (endCycle s).fb = s.fb := rfl
@[simp] theorem endCycle_key (s : State) : (endCycle s).key = s.key := rfl
@[simp] theorem endCycle_rndIn (s : State) : (endCycle s).rndIn = none := rfl
@[simp] theorem endCycle_draws (s : State) : (endCycle s).draws = s.draws := rfl

@[simp] theorem setKeysPort_v (s : State) (k : BitVec 16) : (setKeysPort k s).v = s.v := rfl
@[simp] theorem setKeysPort_i (s : State) (k : BitVec 16) : (setKeysPort k s).i = s.i := rfl
@[simp] theorem setKeysPort_pc (s : State) (k : BitVec 16) : (setKeysPort k s).pc = s.pc := rfl
@[simp] theorem setKeysPort_stack (s : State) (k : BitVec 16) : (setKeysPort k s).stack = s.stack := rfl
@[simp] theorem setKeysPort_sp (s : State) (k : BitVec 16) : (setKeysPort k s).sp = s.sp := rfl
@[simp] theorem setKeysPort_dt (s : State) (k : BitVec 16) : (setKeysPort k s).dt = s.dt := rfl
@[simp] theorem setKeysPort_st (s : State) (k : BitVec 16) : (setKeysPort k s).st = s.st := rfl
@[simp] theorem setKeysPort_mem (s : State) (k : BitVec 16) : (setKeysPort k s).mem = s.mem := rfl
@[simp] theorem setKeysPort_fb (s : State) (k : BitVec 16) : (setKeysPort k s).fb = s.fb := rfl
@[simp] theorem setKeysPort_key (s : State) (k : BitVec 16) : (setKeysPort k s).key = Vector.ofFn fun j => k.getLsbD j.val := rfl
@[simp] theorem setKeysPort_rndIn (s : State) (k : BitVec 16) : (setKeysPort k s).rndIn = s.rndIn := rfl
@[simp] theorem setKeysPort_draws (s : State) (k : BitVec 16) : (setKeysPort k s).draws = s.draws := rfl

@[simp] theorem resetPort_v (s : State) : (resetPort s).v = State.reset.v := rfl
@[simp] theorem resetPort_i (s : State) : (resetPort s).i = State.reset.i := rfl
@[simp] theorem resetPort_pc (s : State) : (resetPort s).pc = State.reset.pc := rfl
@[simp] theorem resetPort_stack (s : State) : (resetPort s).stack = State.reset.stack := rfl
@[simp] theorem resetPort_sp (s : State) : (resetPort s).sp = State.reset.sp := rfl
@[simp] theorem resetPort_dt (s : State) : (resetPort s).dt = State.reset.dt := rfl
@[simp] theorem resetPort_st (s : State) : (resetPort s).st = State.reset.st := rfl
@[simp] theorem resetPort_mem (s : State) : (resetPort s).mem = State.reset.mem := rfl
@[simp] theorem resetPort_fb (s : State) : (resetPort s).fb = State.reset.fb := rfl
@[simp] theorem resetPort_key (s : State) : (resetPort s).key = State.reset.key := rfl
@[simp] theorem resetPort_rndIn (s : State) : (resetPort s).rndIn = State.reset.rndIn := rfl
@[simp] theorem resetPort_draws (s : State) : (resetPort s).draws = s.draws := rfl

/-! ## Reading a register after an update -/

theorem reg_def (s : State) (r : Reg) : s.reg r = s.v[r] := rfl

theorem reg_setReg (s : State) (x r : Reg) (b : Byte) : (s.setReg x b).reg r = if x = r then b else s.reg r := by
  simp [reg_def, Vector.getElem_set, Fin.ext_iff]

@[simp] theorem reg_setReg_same (s : State) (x : Reg) (b : Byte) : (s.setReg x b).reg x = b := by simp [reg_setReg]

theorem reg_setReg_other (s : State) {x r : Reg} (b : Byte) (h : r ≠ x) : (s.setReg x b).reg r = s.reg r := by
  simp [reg_setReg, h.symm]

/-- VF holds the flag, whatever x is (spec/40_cycle.md R140). -/
@[simp] theorem reg_setRegFlag_flag (s : State) (x : Reg) (b f : Byte) : (s.setRegFlag x b f).reg regF = f := by
  simp [setRegFlag]

theorem reg_setRegFlag_result (s : State) {x : Reg} (b f : Byte) (h : x ≠ regF) : (s.setRegFlag x b f).reg x = b := by
  simp [setRegFlag, reg_setReg_other _ _ h]

theorem reg_setRegFlag_other (s : State) {x r : Reg} (b f : Byte) (hx : r ≠ x) (hf : r ≠ regF) :
    (s.setRegFlag x b f).reg r = s.reg r := by
  simp [setRegFlag, reg_setReg_other _ _ hx, reg_setReg_other _ _ hf]

end Sys2Proof.Machine.State
end

