-- ==== Sys2Proof/Laws/Ops.lean ====
section
/-! SUPPORT. One specification lemma for each shared operation: everything it can answer. -/

namespace Sys2Proof.Machine

@[simp] theorem raise_ne_next (e : Fault) (t : State) : raise e ≠ .next t := by simp [raise]

@[simp] theorem raise_eq_fault (e e' : Fault) : raise e = .fault e' ↔ e = e' := by simp [raise]

@[simp] theorem raise_ne_refused (e : Fault) (x : Refusal) : raise e ≠ .refused x := by simp [raise]

@[simp] theorem pc0_advance (s : State) : s.advance.pc0 = s.pc := by simp [State.pc0]

/-! ## The window check -/

theorem windowInside_iff (a len : Nat) : windowInside a len = true ↔ len = 0 ∨ a + len ≤ 4096 := decide_eq_true_iff

theorem windowInside_eq_false (a len : Nat) : windowInside a len = false ↔ 0 < len ∧ 4096 < a + len := by
  rw [Bool.eq_false_iff, Ne, windowInside_iff]; omega

theorem withWindow_eq_next {a len : Nat} {s k t : State} :
    withWindow a len s k = .next t ↔ windowInside a len = true ∧ k = t := by
  unfold withWindow; split <;> simp_all

theorem withWindow_eq_fault {a len : Nat} {s k : State} {e : Fault} :
    withWindow a len s k = .fault e ↔ windowInside a len = false ∧ e = .memoryBounds s.pc0 .mem (max a 4096) := by
  unfold withWindow; split
  · simp_all
  · simp_all only [raise_eq_fault, Bool.not_eq_true, true_and]
    exact eq_comm

@[simp] theorem withWindow_ne_refused (a len : Nat) (s k : State) (x : Refusal) : withWindow a len s k ≠ .refused x := by
  unfold withWindow; split <;> simp

/-! ## The key check -/

theorem withKey_eq_next {b : Byte} {s t : State} {k : Bool → State} :
    withKey b s k = .next t ↔ ∃ h : b.toNat < 16, k s.key[b.toNat] = t := by
  unfold withKey; split <;> simp_all

theorem withKey_eq_fault {b : Byte} {s : State} {k : Bool → State} {e : Fault} :
    withKey b s k = .fault e ↔ 16 ≤ b.toNat ∧ e = .memoryBounds s.pc0 .keypad b.toNat := by
  unfold withKey; split
  · simp; omega
  · simp_all only [raise_eq_fault, not_lt, true_and]
    exact eq_comm

@[simp] theorem withKey_ne_refused (b : Byte) (s : State) (k : Bool → State) (x : Refusal) :
    withKey b s k ≠ .refused x := by
  unfold withKey; split <;> simp

/-! ## The stack -/

theorem call_eq_next {w : Word} {s t : State} :
    call w s = .next t ↔ ∃ h : s.sp.val < 16,
      { s with stack := s.stack.set s.sp.val s.pc, sp := ⟨s.sp.val + 1, by omega⟩, pc := w } = t := by
  unfold call; split <;> simp_all

theorem call_eq_fault {w : Word} {s : State} {e : Fault} :
    call w s = .fault e ↔ s.sp = 16 ∧ e = .stackOverflow s.pc0 := by
  unfold call; split
  · simp only [reduceCtorEq, false_iff, not_and]; rintro h; simp [h] at *
  · rename_i h
    have : s.sp = 16 := Fin.ext (by have := s.sp.isLt; simp; omega)
    simp only [this, true_and, raise_eq_fault]
    exact eq_comm

@[simp] theorem call_ne_refused (w : Word) (s : State) (x : Refusal) : call w s ≠ .refused x := by
  unfold call; split <;> simp

theorem ret_eq_next {s t : State} :
    ret s = .next t ↔ ∃ h : 0 < s.sp.val,
      { s with sp := ⟨s.sp.val - 1, by omega⟩, pc := s.stack[s.sp.val - 1] } = t := by
  unfold ret; split <;> simp_all

theorem ret_eq_fault {s : State} {e : Fault} : ret s = .fault e ↔ s.sp = 0 ∧ e = .stackUnderflow s.pc0 := by
  unfold ret; split
  · simp only [reduceCtorEq, false_iff, not_and]; rintro h; simp [h] at *
  · have : s.sp = 0 := Fin.ext (by simp; omega)
    simp only [this, true_and, raise_eq_fault]
    exact eq_comm

@[simp] theorem ret_ne_refused (s : State) (x : Refusal) : ret s ≠ .refused x := by
  unfold ret; split <;> simp

/-! ## The fetch -/

theorem fetch_eq_ok {s : State} {w : Word} :
    fetch s = .ok w ↔
      s.pc.toNat + 1 < 4096 ∧ wordOfBytes (s.mem.read s.pc.toNat) (s.mem.read (s.pc.toNat + 1)) = w := by
  unfold fetch memRead2 memRead Config.memSize
  by_cases h : s.pc.toNat < 4096 <;> by_cases h' : s.pc.toNat + 1 < 4096 <;> simp [h, h']
  omega

theorem fetch_eq_error {s : State} {e : Fault} :
    fetch s = .error e ↔ 4096 ≤ s.pc.toNat + 1 ∧ e = .memoryBounds s.pc .mem (max s.pc.toNat 4096) := by
  unfold fetch memRead2 memRead Config.memSize
  by_cases h : s.pc.toNat < 4096
  · by_cases h' : s.pc.toNat + 1 < 4096
    · simp [h, h']; omega
    · have : s.pc.toNat = 4095 := by omega
      simp [this, eq_comm]
  · simp only [if_neg h, Except.error.injEq, Nat.max_eq_left (Nat.le_of_not_lt h)]
    rw [eq_comm (a := e)]
    simp; omega

/-! ## The keypad and the framebuffer -/

theorem firstKey_eq_some {key : Vector Bool 16} {k : Fin 16} :
    firstKey key = some k ↔ key[k] = true ∧ ∀ j < k, key[j] = false := by
  have sorted : (List.finRange 16).Pairwise (· < ·) := by decide
  unfold firstKey
  rw [List.find?_eq_some_iff_append]
  constructor
  · rintro ⟨hk, as, bs, e, hn⟩
    refine ⟨hk, fun j hj => ?_⟩
    have hj' : j ∈ as ++ k :: bs := e ▸ List.mem_finRange j
    rw [e] at sorted
    simp only [List.pairwise_append, List.pairwise_cons] at sorted
    rcases List.mem_append.1 hj' with h | h
    · simpa using hn j h
    · rcases List.mem_cons.1 h with rfl | h
      · exact absurd hj (lt_irrefl _)
      · exact absurd (sorted.2.1.1 j h) (lt_asymm hj)
  · rintro ⟨hk, hn⟩
    obtain ⟨as, bs, e⟩ := List.append_of_mem (List.mem_finRange k)
    refine ⟨hk, as, bs, e, fun j hj => ?_⟩
    rw [e] at sorted
    simp only [List.pairwise_append] at sorted
    simpa using hn j (sorted.2.2 j hj k List.mem_cons_self)

theorem firstKey_eq_none {key : Vector Bool 16} : firstKey key = none ↔ ∀ k : Fin 16, key[k] = false := by
  simp [firstKey]

theorem pixel_flipPixel (fb : Framebuffer) (x x' : Fin 64) (y y' : Fin 32) :
    pixel (flipPixel fb x y) x' y' = if x' = x ∧ y' = y then !pixel fb x y else pixel fb x' y' := by
  simp only [pixel, flipPixel, Fin.getElem_fin, Vector.getElem_set, Fin.ext_iff]
  by_cases hy : y.val = y'.val
  · by_cases hx : x.val = x'.val <;> simp [hx, hy, eq_comm]
  · simp [hy, Ne.symm hy]

@[simp] theorem pixel_clearedFb (x : Fin 64) (y : Fin 32) : pixel clearedFb x y = false := by
  simp [pixel, clearedFb]

theorem fb_ext {fb fb' : Framebuffer} (h : ∀ x y, pixel fb x y = pixel fb' x y) : fb = fb' := by
  ext y hy x hx
  exact congrArg (· = true) (h ⟨x, hx⟩ ⟨y, hy⟩) |> fun e => by simpa [pixel] using e

/-! ## Timers and flags -/

theorem toNat_tickTimer (t : Byte) : (tickTimer t).toNat = t.toNat - 1 := by
  unfold tickTimer
  split
  · simp_all
  · have : t.toNat ≠ 0 := fun h => ‹¬ t = 0› (BitVec.eq_of_toNat_eq h)
    rw [BitVec.toNat_sub_of_le (by simp [BitVec.le_def]; omega)]
    rfl

theorem flagByte_eq_one (c : Bool) : flagByte c = 1 ↔ c = true := by cases c <;> decide

theorem flagByte_eq_zero (c : Bool) : flagByte c = 0 ↔ c = false := by cases c <;> decide

@[simp] theorem toNat_flagByte (c : Bool) : (flagByte c).toNat = if c then 1 else 0 := by cases c <;> rfl

end Sys2Proof.Machine
end

