-- ==== Sys2Proof/Laws/Display.lean ====
section
/-! SUPPORT. What drawing a sprite does to the framebuffer and to the collision flag: the nested loops as one list of
target pixels, no pixel twice in it. -/

namespace Sys2Proof.Machine

/-! ## The pixels a sprite falls on, in drawing order -/

/-- The targets of row `r`: one for each set bit. -/
def rowSpots (policy : Config.DrawEdgePolicy) (xo yo r : Nat) (row : Byte) : List (Option (Fin 64 × Fin 32)) :=
  ((List.range 8).filter (spriteBit row)).map (target policy xo yo r)

/-- The targets of the rows from row `r` on. -/
def spots (policy : Config.DrawEdgePolicy) (xo yo r : Nat) (rows : List Byte) : List (Option (Fin 64 × Fin 32)) :=
  match rows with
  | [] => []
  | row :: rest => rowSpots policy xo yo r row ++ spots policy xo yo (r + 1) rest

theorem plotRow_eq (policy : Config.DrawEdgePolicy) (xo yo r : Nat) (row : Byte) (c : Canvas) :
    plotRow policy xo yo r row c = (rowSpots policy xo yo r row).foldl (fun c a => plot a c) c := by
  simp only [plotRow, rowSpots, List.foldl_map, List.foldl_filter]

theorem plotRows_eq (policy : Config.DrawEdgePolicy) (xo yo r : Nat) (rows : List Byte) (c : Canvas) :
    plotRows policy xo yo r rows c = (spots policy xo yo r rows).foldl (fun c a => plot a c) c := by
  induction rows generalizing r c with
  | nil => rfl
  | cons row rest ih => rw [plotRows, ih, spots, List.foldl_append, plotRow_eq]

theorem mem_rowSpots {policy : Config.DrawEdgePolicy} {xo yo r : Nat} {row : Byte} {a : Option (Fin 64 × Fin 32)} :
    a ∈ rowSpots policy xo yo r row ↔ ∃ b < 8, spriteBit row b = true ∧ target policy xo yo r b = a := by
  simp [rowSpots, and_assoc]

theorem mem_spots {policy : Config.DrawEdgePolicy} {xo yo r : Nat} {rows : List Byte} {a : Option (Fin 64 × Fin 32)} :
    a ∈ spots policy xo yo r rows ↔
      ∃ j b, ∃ h : j < rows.length, b < 8 ∧ spriteBit rows[j] b = true ∧ target policy xo yo (r + j) b = a := by
  induction rows generalizing r with
  | nil => simp [spots]
  | cons row rest ih =>
    rw [spots, List.mem_append, mem_rowSpots, ih]
    constructor
    · rintro (⟨b, hb, hs, ht⟩ | ⟨j, b, h, hb, hs, ht⟩)
      · exact ⟨0, b, by simp, hb, hs, ht⟩
      · exact ⟨j + 1, b, by simpa using h, hb, hs, by rw [← ht]; congr 1; omega⟩
    · rintro ⟨_ | j, b, h, hb, hs, ht⟩
      · exact .inl ⟨b, hb, hs, ht⟩
      · exact .inr ⟨j, b, by simpa using h, hb, hs, by rw [← ht]; congr 1; omega⟩

/-- Two bits of a sprite of at most 32 rows fall on different pixels. -/
theorem target_inj {policy : Config.DrawEdgePolicy} {xo yo r r' b b' : Nat} {p : Fin 64 × Fin 32}
    (hb : b < 8) (hb' : b' < 8) (hr : r < r' + 32) (hr' : r' < r + 32)
    (h : target policy xo yo r b = some p) (h' : target policy xo yo r' b' = some p) : r = r' ∧ b = b' := by
  cases policy with
  | wrap => simp only [target, Option.some.injEq] at h h'; subst h; simp at h'; omega
  | clip =>
    simp only [target] at h h'
    split at h <;> split at h' <;> simp only [reduceCtorEq, Option.some.injEq] at h h'
    subst h; simp at h'; omega

theorem pairwise_rowSpots (policy : Config.DrawEdgePolicy) (xo yo r : Nat) (row : Byte) :
    (rowSpots policy xo yo r row).Pairwise fun a b => ∀ p, a = some p → b ≠ some p := by
  rw [rowSpots, List.pairwise_map]
  refine List.Pairwise.imp_of_mem ?_ (List.nodup_range.filter _)
  intro b b' hb hb' hne p h h'
  simp only [List.mem_filter, List.mem_range] at hb hb'
  exact hne (target_inj hb.1 hb'.1 (by omega) (by omega) h h').2

/-- No pixel is hit twice by a sprite of at most 32 rows. -/
theorem pairwise_spots (policy : Config.DrawEdgePolicy) (xo yo r : Nat) (rows : List Byte) (hn : rows.length ≤ 32) :
    (spots policy xo yo r rows).Pairwise fun a b => ∀ p, a = some p → b ≠ some p := by
  induction rows generalizing r with
  | nil => exact List.Pairwise.nil
  | cons row rest ih =>
    have hn' : rest.length < 32 := hn
    rw [spots, List.pairwise_append]
    refine ⟨pairwise_rowSpots .., ih _ (by omega), fun a ha b hb p h h' => ?_⟩
    obtain ⟨c, hc, -, rfl⟩ := mem_rowSpots.1 ha
    obtain ⟨j, c', hj, hc', -, rfl⟩ := mem_spots.1 hb
    have := (target_inj hc hc' (by omega) (by omega) h h').1
    omega

/-- Plotting targets no two of which are one pixel inverts exactly those, and finds a collision exactly where one of them
was lit at the start. -/
theorem foldl_plot (l : List (Option (Fin 64 × Fin 32))) (c : Canvas)
    (hl : l.Pairwise fun a b => ∀ p, a = some p → b ≠ some p) :
    (∀ x y, pixel (l.foldl (fun c a => plot a c) c).fb x y = (decide (some (x, y) ∈ l) ^^ pixel c.fb x y)) ∧
    ((l.foldl (fun c a => plot a c) c).hit = true ↔
      c.hit = true ∨ ∃ x y, some (x, y) ∈ l ∧ pixel c.fb x y = true) := by
  induction l generalizing c with
  | nil => simp
  | cons a l ih =>
    obtain ⟨ha, hl'⟩ := List.pairwise_cons.1 hl
    rw [List.foldl_cons]
    obtain ⟨hfb, hhit⟩ := ih (plot a c) hl'
    cases a with
    | none => simpa [plot] using ih c hl'
    | some p =>
      obtain ⟨x, y⟩ := p
      have hx : some (x, y) ∉ l := fun h => ha _ h _ rfl rfl
      refine ⟨fun x' y' => ?_, ?_⟩
      · rw [hfb]
        simp only [plot, pixel_flipPixel, List.mem_cons, Option.some.injEq, Prod.mk.injEq]
        by_cases h : x' = x ∧ y' = y
        · obtain ⟨rfl, rfl⟩ := h; simp [hx]
        · simp [h]
      · rw [hhit]
        simp only [plot, pixel_flipPixel, List.mem_cons, Option.some.injEq, Prod.mk.injEq, Bool.or_eq_true]
        constructor
        · rintro ((h | h) | ⟨x', y', h, h'⟩)
          · exact .inl h
          · exact .inr ⟨x, y, by simp, h⟩
          · rw [if_neg (by rintro ⟨rfl, rfl⟩; exact hx h)] at h'
            exact .inr ⟨x', y', .inr h, h'⟩
        · rintro (h | ⟨x', y', ⟨rfl, rfl⟩ | h, h'⟩)
          · exact .inl (.inl h)
          · exact .inl (.inr h')
          · exact .inr ⟨x', y', h, by rw [if_neg (by rintro ⟨rfl, rfl⟩; exact hx h)]; exact h'⟩

/-- Everything drawing a sprite can do: the spots are inverted, and the collision is that one of them was lit. -/
theorem drawSprite_spec (policy : Config.DrawEdgePolicy) (xo yo : Nat) (rows : List Byte) (fb : Framebuffer)
    (hn : rows.length ≤ 32) :
    (∀ x y, pixel (drawSprite policy xo yo rows fb).fb x y =
      (decide (some (x, y) ∈ spots policy xo yo 0 rows) ^^ pixel fb x y)) ∧
    ((drawSprite policy xo yo rows fb).hit = true ↔
      ∃ x y, some (x, y) ∈ spots policy xo yo 0 rows ∧ pixel fb x y = true) := by
  rw [drawSprite, plotRows_eq]
  simpa using foldl_plot _ { fb := fb, hit := false } (pairwise_spots policy xo yo 0 rows hn)

end Sys2Proof.Machine
end

