-- ==== Sys2Proof/Laws/Exec.lean ====
section
/-! SUPPORT. What each instruction's handler answers, one equation an instruction, so that no proof unfolds a meaning. -/

namespace Sys2Proof.Machine

section Answers

variable (x y : Reg) (kk : Byte) (nnn : Addr12) (n : Fin 16) (s : State)

/-! ## Handlers that cannot fail -/

theorem exec_jpAddr : exec (.jpAddr nnn) s = .next (s.setPc (addrOf nnn)) := rfl

theorem exec_jpV0 : exec (.jpV0 nnn) s = .next (s.setPc (offsetTarget (s.reg 0) nnn)) := rfl

theorem exec_seKk : exec (.seKk x kk) s = .next (s.skipIf (decide (s.reg x = kk))) := rfl

theorem exec_sneKk : exec (.sneKk x kk) s = .next (s.skipIf (decide (s.reg x ≠ kk))) := rfl

theorem exec_seReg : exec (.seReg x y) s = .next (s.skipIf (decide (s.reg x = s.reg y))) := rfl

theorem exec_sneReg : exec (.sneReg x y) s = .next (s.skipIf (decide (s.reg x ≠ s.reg y))) := rfl

theorem exec_ldKk : exec (.ldKk x kk) s = .next (s.setReg x kk) := rfl

theorem exec_addKk : exec (.addKk x kk) s = .next (s.setReg x (s.reg x + kk)) := rfl

theorem exec_ldReg : exec (.ldReg x y) s = .next (s.setReg x (s.reg y)) := rfl

theorem exec_orReg : exec (.orReg x y) s = .next (s.setReg x (s.reg x ||| s.reg y)) := rfl

theorem exec_andReg : exec (.andReg x y) s = .next (s.setReg x (s.reg x &&& s.reg y)) := rfl

theorem exec_xorReg : exec (.xorReg x y) s = .next (s.setReg x (s.reg x ^^^ s.reg y)) := rfl

theorem exec_addReg : exec (.addReg x y) s = .next
    (s.setRegFlag x (s.reg x + s.reg y) (carryFlag (s.reg x) (s.reg y))) := rfl

theorem exec_subReg : exec (.subReg x y) s = .next
    (s.setRegFlag x (s.reg x - s.reg y) (noBorrowFlag (s.reg x) (s.reg y))) := rfl

theorem exec_subnReg : exec (.subnReg x y) s = .next
    (s.setRegFlag x (s.reg y - s.reg x) (noBorrowFlag (s.reg y) (s.reg x))) := rfl

theorem exec_shr : exec (.shr x y) s = .next (s.setRegFlag x (s.reg x >>> 1) (shiftedOutLow (s.reg x))) := rfl

theorem exec_shl : exec (.shl x y) s = .next (s.setRegFlag x (s.reg x <<< 1) (shiftedOutHigh (s.reg x))) := rfl

theorem exec_rnd : exec (.rnd x kk) s = .next { s.setReg x (s.draw &&& kk) with draws := s.draws + 1 } := rfl

theorem exec_cls : exec .cls s = .next { s with fb := clearedFb } := rfl

theorem exec_ldI : exec (.ldI nnn) s = .next (s.setI (addrOf nnn)) := rfl

theorem exec_addI : exec (.addI x) s = .next (s.setI (indexPlus s.i (s.reg x))) := rfl

theorem exec_ldF : exec (.ldF x) s = .next (s.setI (glyphAddress (s.reg x))) := rfl

theorem exec_ldVxDt : exec (.ldVxDt x) s = .next (s.setReg x s.dt) := rfl

theorem exec_ldDtVx : exec (.ldDtVx x) s = .next { s with dt := s.reg x } := rfl

theorem exec_ldStVx : exec (.ldStVx x) s = .next { s with st := s.reg x } := rfl

theorem exec_ldVxK_of_key {k : Fin 16} (h : firstKey s.key = some k) :
    exec (.ldVxK x) s = .next (s.setReg x (BitVec.ofNat 8 k.val)) := by
  simp [exec, execLdVxK, h]

theorem exec_ldVxK_of_none (h : firstKey s.key = none) : exec (.ldVxK x) s = .next { s with pc := s.pc - 2 } := by
  simp [exec, execLdVxK, h]

/-- Everything FX0A can answer. -/
theorem exec_ldVxK_eq_next {t : State} : exec (.ldVxK x) s = .next t ↔
    (∃ k, firstKey s.key = some k ∧ s.setReg x (BitVec.ofNat 8 k.val) = t) ∨
    firstKey s.key = none ∧ { s with pc := s.pc - 2 } = t := by
  cases e : firstKey s.key with
  | none => rw [exec_ldVxK_of_none _ _ e]; simp
  | some k => rw [exec_ldVxK_of_key _ _ e]; simp

/-! ## Handlers over a shared operation that can raise -/

theorem exec_ret : exec .ret s = ret s := rfl

theorem exec_callAddr : exec (.callAddr nnn) s = call (addrOf nnn) s := rfl

theorem exec_skp : exec (.skp x) s = withKey (s.reg x) s fun pressed => s.skipIf pressed := rfl

theorem exec_sknp : exec (.sknp x) s = withKey (s.reg x) s fun pressed => s.skipIf (!pressed) := rfl

theorem exec_ldB : exec (.ldB x) s =
    withWindow s.base 3 s { s with mem := s.mem.writeBytes s.base (bcdDigits (s.reg x)) } := rfl

theorem exec_ldMemVx : exec (.ldMemVx x) s =
    withWindow s.base (x.val + 1) s { s with mem := s.mem.writeBytes s.base (s.regsUpTo x) } := rfl

theorem exec_ldVxMem : exec (.ldVxMem x) s =
    withWindow s.base (x.val + 1) s { s with v := loadRegs s.v s.mem s.base x } := rfl

theorem exec_drw : exec (.drw x y n) s = drawWith .wrap x y n s := rfl

end Answers

/-! ## Operand lengths and values -/

@[simp] theorem length_regsUpTo (s : State) (x : Reg) : (s.regsUpTo x).length = x.val + 1 := by
  simp [State.regsUpTo]

@[simp] theorem length_bcdDigits (b : Byte) : (bcdDigits b).length = 3 := rfl

theorem toNat_addrOf (nnn : Addr12) : (addrOf nnn).toNat = nnn.toNat := by
  simp [addrOf]; omega

theorem toNat_offsetTarget (v0 : Byte) (nnn : Addr12) : (offsetTarget v0 nnn).toNat = v0.toNat + nnn.toNat := by
  simp [offsetTarget]; omega

theorem toNat_glyphAddress (b : Byte) : (glyphAddress b).toNat = 0x050 + 5 * b.toNat := by
  simp [glyphAddress, Config.fontBase, Config.glyphBytes]; omega

theorem getElem_loadRegs (v : Vector Byte 16) (m : Memory) (a : Nat) (x r : Reg) :
    (loadRegs v m a x)[r] = if r ≤ x then m.read (a + r.val) else v[r] := by
  simp [loadRegs]

end Sys2Proof.Machine
end

