-- ==== Sys2Proof/Laws/PerInstr.lean ====
section
/-! SUPPORT. Facts about every instruction as syntax, one lemma per constructor. -/

namespace Sys2Proof.Laws.Canonical

/-- The encoder gives the canonical word of every instruction (spec/30_encoding.md R111, R113): the digits that the
dispatch does not examine are those of the source's spelling. -/
def Statement (i : Instr) : Prop := wellFormedWord (encode i) = true

theorem cls : Statement .cls := by unfold Statement; decide

theorem ret : Statement .ret := by unfold Statement; decide

theorem jpAddr (nnn : Addr12) : Statement (.jpAddr nnn) := by simp [Statement, wellFormedWord, encode]

theorem callAddr (nnn : Addr12) : Statement (.callAddr nnn) := by simp [Statement, wellFormedWord, encode]

theorem seKk (x : Reg) (kk : Byte) : Statement (.seKk x kk) := by simp [Statement, wellFormedWord, encode]

theorem sneKk (x : Reg) (kk : Byte) : Statement (.sneKk x kk) := by simp [Statement, wellFormedWord, encode]

theorem seReg (x y : Reg) : Statement (.seReg x y) := by simp [Statement, wellFormedWord, encode]

theorem ldKk (x : Reg) (kk : Byte) : Statement (.ldKk x kk) := by simp [Statement, wellFormedWord, encode]

theorem addKk (x : Reg) (kk : Byte) : Statement (.addKk x kk) := by simp [Statement, wellFormedWord, encode]

theorem ldReg (x y : Reg) : Statement (.ldReg x y) := by simp [Statement, wellFormedWord, encode]

theorem orReg (x y : Reg) : Statement (.orReg x y) := by simp [Statement, wellFormedWord, encode]

theorem andReg (x y : Reg) : Statement (.andReg x y) := by simp [Statement, wellFormedWord, encode]

theorem xorReg (x y : Reg) : Statement (.xorReg x y) := by simp [Statement, wellFormedWord, encode]

theorem addReg (x y : Reg) : Statement (.addReg x y) := by simp [Statement, wellFormedWord, encode]

theorem subReg (x y : Reg) : Statement (.subReg x y) := by simp [Statement, wellFormedWord, encode]

theorem shr (x y : Reg) : Statement (.shr x y) := by simp [Statement, wellFormedWord, encode]

theorem subnReg (x y : Reg) : Statement (.subnReg x y) := by simp [Statement, wellFormedWord, encode]

theorem shl (x y : Reg) : Statement (.shl x y) := by simp [Statement, wellFormedWord, encode]

theorem sneReg (x y : Reg) : Statement (.sneReg x y) := by simp [Statement, wellFormedWord, encode]

theorem ldI (nnn : Addr12) : Statement (.ldI nnn) := by simp [Statement, wellFormedWord, encode]

theorem jpV0 (nnn : Addr12) : Statement (.jpV0 nnn) := by simp [Statement, wellFormedWord, encode]

theorem rnd (x : Reg) (kk : Byte) : Statement (.rnd x kk) := by simp [Statement, wellFormedWord, encode]

theorem drw (x y : Reg) (n : Fin 16) : Statement (.drw x y n) := by simp [Statement, wellFormedWord, encode]

theorem skp (x : Reg) : Statement (.skp x) := by
  simp [Statement, wellFormedWord, encode, fieldN_encodeXkk]

theorem sknp (x : Reg) : Statement (.sknp x) := by
  simp [Statement, wellFormedWord, encode, fieldN_encodeXkk]

theorem ldVxDt (x : Reg) : Statement (.ldVxDt x) := by simp [Statement, wellFormedWord, encode]

theorem ldVxK (x : Reg) : Statement (.ldVxK x) := by simp [Statement, wellFormedWord, encode]

theorem ldDtVx (x : Reg) : Statement (.ldDtVx x) := by simp [Statement, wellFormedWord, encode]

theorem ldStVx (x : Reg) : Statement (.ldStVx x) := by simp [Statement, wellFormedWord, encode]

theorem addI (x : Reg) : Statement (.addI x) := by simp [Statement, wellFormedWord, encode]

theorem ldF (x : Reg) : Statement (.ldF x) := by simp [Statement, wellFormedWord, encode]

theorem ldB (x : Reg) : Statement (.ldB x) := by simp [Statement, wellFormedWord, encode]

theorem ldMemVx (x : Reg) : Statement (.ldMemVx x) := by simp [Statement, wellFormedWord, encode]

theorem ldVxMem (x : Reg) : Statement (.ldVxMem x) := by simp [Statement, wellFormedWord, encode]

end Sys2Proof.Laws.Canonical
end

