-- ==== Sys2Proof/Laws/Step.lean ====
section
/-! SUPPORT. What a cycle can do, said once: everything `finish`, `runWord` and `step` can answer. -/

namespace Sys2Proof.Machine

theorem finish_eq_next {r : Result} {t : State} : finish r = .next t ↔ ∃ u, r = .next u ∧ endCycle u = t := by
  cases r <;> simp [finish]

theorem finish_eq_fault {r : Result} {e : Fault} : finish r = .fault e ↔ r = .fault e := by
  cases r <;> simp [finish]

theorem finish_eq_refused {r : Result} {x : Refusal} : finish r = .refused x ↔ r = .refused x := by
  cases r <;> simp [finish]

/-- A mapped word runs its instruction. -/
theorem runWord_of_ok {w : Word} {i : Instr} (h : decode w = .ok i) (s : State) : runWord w s = exec i s := by
  simp [runWord, runWordWith, h]

/-- An unmapped word changes nothing under `UNKNOWN_OPCODE_POLICY = NOP`. -/
theorem runWord_of_error {w : Word} {e : Unmapped} (h : decode w = .error e) (s : State) : runWord w s = .next s := by
  simp [runWord, runWordWith, h, unmappedWith, unknownOpcodePolicy]

theorem step_eq (s : State) : step s = match fetch s with
    | .error e => raise e
    | .ok w => finish (runWord w s.advance) := rfl

/-- A cycle returns `ok` exactly when the fetch and the handler do; the timers then tick. -/
theorem step_eq_next {s t : State} :
    step s = .next t ↔ ∃ w u, fetch s = .ok w ∧ runWord w s.advance = .next u ∧ endCycle u = t := by
  rw [step_eq]
  cases h : fetch s with
  | error e => simp
  | ok w => simp [finish_eq_next]

/-- A cycle fails exactly when the fetch fails or the handler of the fetched word does. -/
theorem step_eq_fault {s : State} {e : Fault} :
    step s = .fault e ↔ fetch s = .error e ∨ ∃ w, fetch s = .ok w ∧ runWord w s.advance = .fault e := by
  rw [step_eq]
  cases h : fetch s with
  | error e' => simp
  | ok w => simp [finish_eq_fault]

theorem step_eq_refused {s : State} {x : Refusal} :
    step s = .refused x ↔ ∃ w, fetch s = .ok w ∧ runWord w s.advance = .refused x := by
  rw [step_eq]
  cases h : fetch s with
  | error e => simp
  | ok w => simp [finish_eq_refused]

/-- A cycle that returns `ok` from a known word: the timers tick after the handler of that word. -/
theorem step_next_cases {s t : State} {w : Word} (hf : fetch s = .ok w) (hs : step s = .next t) :
    ∃ u, endCycle u = t ∧
      ((∃ e, decode w = .error e ∧ u = s.advance) ∨ ∃ i, decode w = .ok i ∧ exec i s.advance = .next u) := by
  obtain ⟨w', u, hf', hr, rfl⟩ := step_eq_next.1 hs
  obtain rfl : w = w' := by rw [hf] at hf'; injection hf'
  refine ⟨u, rfl, ?_⟩
  cases hd : decode w with
  | error e => rw [runWord_of_error hd] at hr; exact .inl ⟨e, rfl, by injection hr with h; exact h.symm⟩
  | ok i => rw [runWord_of_ok hd] at hr; exact .inr ⟨i, rfl, hr⟩

end Sys2Proof.Machine
end

