-- ==== Sys2Proof/Tests/Slice0.lean ====
section
/-! SUPPORT. The model's own tests. Expected results are those of spec/95_test_vectors.md, whose row each test names, or
worked out by hand from the rule it names. Each test is one step. The witnesses at the end show, for every statement with
hypotheses, a concrete state and operands that meet them. -/

namespace Sys2Proof.Tests

open Sys2Proof Sys2Proof.Machine

/-! ## Well-formed words and images -/

/-- One ill-formed word for each digit position the dispatch does not examine (spec/30_encoding.md R111). -/
theorem test_ill_formed_words_are_refused :
    wellFormedWord 0x01E0 = false ∧ wellFormedWord 0x0A5E = false ∧ wellFormedWord 0x5121 = false ∧
    wellFormedWord 0x912F = false ∧ wellFormedWord 0xE30E = false ∧ wellFormedWord 0xE311 = false := by decide

theorem test_canonical_words_are_accepted :
    wellFormedWord 0x00E0 = true ∧ wellFormedWord 0x00EE = true ∧ wellFormedWord 0x5120 = true ∧
    wellFormedWord 0x9120 = true ∧ wellFormedWord 0xE39E = true ∧ wellFormedWord 0xE3A1 = true ∧
    wellFormedWord 0x8AB6 = true := by decide

/-- T-RST-3, T-RST-4. -/
theorem test_image_of_3584_bytes_is_accepted : wellFormedImage (List.replicate 3584 0xAA) = true :=
  decide_eq_true (by rw [List.length_replicate]; decide)

theorem test_image_of_3585_bytes_is_refused : wellFormedImage (List.replicate 3585 0xAA) = false :=
  decide_eq_false (by rw [List.length_replicate]; decide)

/-! ## Decoding: one word written out for every constructor (spec/30_encoding.md R101, R106, R113) -/

/-- Selector digits 0 to 7, nibble by nibble. -/
theorem test_decode_families_0_to_7 :
    decode (0b0000#4 ++ 0b0000#4 ++ 0b1110#4 ++ 0b0000#4) = .ok .cls ∧
    decode (0b0000#4 ++ 0b0000#4 ++ 0b1110#4 ++ 0b1110#4) = .ok .ret ∧
    decode (0b0001#4 ++ 0b0010#4 ++ 0b1010#4 ++ 0b0000#4) = .ok (.jpAddr 0x2A0) ∧
    decode (0b0010#4 ++ 0b0010#4 ++ 0b0001#4 ++ 0b0000#4) = .ok (.callAddr 0x210) ∧
    decode (0b0011#4 ++ 0b0111#4 ++ 0b0100#4 ++ 0b0010#4) = .ok (.seKk 7 0x42) ∧
    decode (0b0100#4 ++ 0b0011#4 ++ 0b0001#4 ++ 0b0000#4) = .ok (.sneKk 3 0x10) ∧
    decode (0b0101#4 ++ 0b0001#4 ++ 0b0010#4 ++ 0b0000#4) = .ok (.seReg 1 2) ∧
    decode (0b0110#4 ++ 0b0100#4 ++ 0b0010#4 ++ 0b1010#4) = .ok (.ldKk 4 0x2A) ∧
    decode (0b0111#4 ++ 0b0010#4 ++ 0b1111#4 ++ 0b1111#4) = .ok (.addKk 2 0xFF) :=
  ⟨rfl, rfl, rfl, rfl, rfl, rfl, rfl, rfl, rfl⟩

/-- Selector digit 8, all nine. -/
theorem test_decode_family_8 :
    decode (0b1000#4 ++ 0b0011#4 ++ 0b0101#4 ++ 0b0000#4) = .ok (.ldReg 3 5) ∧
    decode (0b1000#4 ++ 0b0011#4 ++ 0b0101#4 ++ 0b0001#4) = .ok (.orReg 3 5) ∧
    decode (0b1000#4 ++ 0b0011#4 ++ 0b0101#4 ++ 0b0010#4) = .ok (.andReg 3 5) ∧
    decode (0b1000#4 ++ 0b0011#4 ++ 0b0101#4 ++ 0b0011#4) = .ok (.xorReg 3 5) ∧
    decode (0b1000#4 ++ 0b0011#4 ++ 0b0101#4 ++ 0b0100#4) = .ok (.addReg 3 5) ∧
    decode (0b1000#4 ++ 0b0011#4 ++ 0b0101#4 ++ 0b0101#4) = .ok (.subReg 3 5) ∧
    decode (0b1000#4 ++ 0b1010#4 ++ 0b1011#4 ++ 0b0110#4) = .ok (.shr 0xA 0xB) ∧
    decode (0b1000#4 ++ 0b0011#4 ++ 0b0101#4 ++ 0b0111#4) = .ok (.subnReg 3 5) ∧
    decode (0b1000#4 ++ 0b1010#4 ++ 0b1011#4 ++ 0b1110#4) = .ok (.shl 0xA 0xB) :=
  ⟨rfl, rfl, rfl, rfl, rfl, rfl, rfl, rfl, rfl⟩

/-- Selector digits 9 to E. -/
theorem test_decode_families_9_to_E :
    decode (0b1001#4 ++ 0b0001#4 ++ 0b0010#4 ++ 0b0000#4) = .ok (.sneReg 1 2) ∧
    decode (0b1010#4 ++ 0b0010#4 ++ 0b1010#4 ++ 0b0100#4) = .ok (.ldI 0x2A4) ∧
    decode (0b1011#4 ++ 0b0001#4 ++ 0b0010#4 ++ 0b0011#4) = .ok (.jpV0 0x123) ∧
    decode (0b1100#4 ++ 0b0001#4 ++ 0b0000#4 ++ 0b1111#4) = .ok (.rnd 1 0x0F) ∧
    decode (0b1101#4 ++ 0b0000#4 ++ 0b0001#4 ++ 0b0101#4) = .ok (.drw 0 1 5) ∧
    decode (0b1110#4 ++ 0b0011#4 ++ 0b1001#4 ++ 0b1110#4) = .ok (.skp 3) ∧
    decode (0b1110#4 ++ 0b0011#4 ++ 0b1010#4 ++ 0b0001#4) = .ok (.sknp 3) := ⟨rfl, rfl, rfl, rfl, rfl, rfl, rfl⟩

/-- Selector digit F, all nine. -/
theorem test_decode_family_F :
    decode (0b1111#4 ++ 0b0010#4 ++ 0b0000#4 ++ 0b0111#4) = .ok (.ldVxDt 2) ∧
    decode (0b1111#4 ++ 0b0010#4 ++ 0b0000#4 ++ 0b1010#4) = .ok (.ldVxK 2) ∧
    decode (0b1111#4 ++ 0b0010#4 ++ 0b0001#4 ++ 0b0101#4) = .ok (.ldDtVx 2) ∧
    decode (0b1111#4 ++ 0b0010#4 ++ 0b0001#4 ++ 0b1000#4) = .ok (.ldStVx 2) ∧
    decode (0b1111#4 ++ 0b0010#4 ++ 0b0001#4 ++ 0b1110#4) = .ok (.addI 2) ∧
    decode (0b1111#4 ++ 0b0010#4 ++ 0b0010#4 ++ 0b1001#4) = .ok (.ldF 2) ∧
    decode (0b1111#4 ++ 0b0010#4 ++ 0b0011#4 ++ 0b0011#4) = .ok (.ldB 2) ∧
    decode (0b1111#4 ++ 0b0010#4 ++ 0b0101#4 ++ 0b0101#4) = .ok (.ldMemVx 2) ∧
    decode (0b1111#4 ++ 0b0010#4 ++ 0b0110#4 ++ 0b0101#4) = .ok (.ldVxMem 2) :=
  ⟨rfl, rfl, rfl, rfl, rfl, rfl, rfl, rfl, rfl⟩

/-- T-ENC-2, 3, 5, 10, 11, 15, 16: digits the dispatch does not examine. -/
theorem test_decode_non_canonical_words :
    decode 0x01E0 = .ok .cls ∧ decode 0x0000 = .ok .cls ∧ decode 0x0A5E = .ok .ret ∧ decode 0xE30E = .ok (.skp 3) ∧
    decode 0xE311 = .ok (.sknp 3) ∧ decode 0x5121 = .ok (.seReg 1 2) ∧ decode 0x912F = .ok (.sneReg 1 2) :=
  ⟨rfl, rfl, rfl, rfl, rfl, rfl, rfl⟩

/-- T-ENC-6, 7, 8, 12, 13, 14: unmapped words, each rejected by the name of its family. -/
theorem test_decode_unmapped_words :
    decode 0x0123 = .error (.family0 3) ∧ decode 0x8008 = .error (.family8 8) ∧ decode 0x800F = .error (.family8 0xF) ∧
    decode 0xE39F = .error (.familyE 0xF) ∧ decode 0xF000 = .error (.familyF 0) ∧
    decode 0xF30B = .error (.familyF 0x0B) ∧ decodeBytes [0x12] = .error .truncated := ⟨rfl, rfl, rfl, rfl, rfl, rfl, rfl⟩

/-- S1: 0x83 then 0x54 in memory. -/
theorem test_bytes_are_big_endian :
    decodeBytes [0x83, 0x54, 0x77] = .ok (.addReg 3 5, [0x77]) ∧ bytesOfWord (encode (.addReg 3 5)) = [0x83, 0x54] ∧
    decodeTableWord 16 0x8354 = some (.addReg 3 5) ∧ encode (.sneReg 4 4) = 0x9440 := ⟨rfl, rfl, rfl, rfl⟩

/-! ## One cycle -/

/-- The reset state with some registers set. -/
def regs (l : List (Reg × Byte)) : State := l.foldl (fun s p => s.setReg p.1 p.2) State.reset

/-- `s` with the bytes `l` in memory from `a` up. -/
def put (a : Nat) (l : List Byte) (s : State) : State := { s with mem := s.mem.writeBytes a l }

/-- The cycle that runs `w` from `s` returns `ok`, in a state that satisfies `p`. -/
def ok (w : Nat) (s : State) (p : State → Bool) : Bool :=
  match step (s.withFetchWord 16 w) with
  | .next t => p t
  | .fault _ => false
  | .refused _ => false

/-- The error of the cycle that runs `w` from `s`. -/
def err (w : Nat) (s : State) : Option Fault :=
  match step (s.withFetchWord 16 w) with
  | .next _ => none
  | .fault e => some e
  | .refused _ => none

/-- T-CYC-2: an odd PC. -/
theorem test_cycle_at_odd_pc :
    ok 0x612A { State.reset with pc := 0x201 } (fun t => t.reg 1 = 0x2A ∧ t.pc = 0x203) = true := by decide

/-- T-CYC-3: the last word of memory. -/
theorem test_cycle_at_ffe :
    ok 0x6001 { State.reset with pc := 0xFFE } (fun t => t.reg 0 = 1 ∧ t.pc = 0x1000) = true := by decide

/-- T-CYC-4, T-CYC-8: the same error twice, and nothing ticks. -/
theorem test_fetch_at_fff :
    transact (.cycle 0) { State.reset with pc := 0xFFF, dt := 5 } =
      ({ State.reset with pc := 0xFFF, dt := 5 }, .err 4 (.memoryBounds 0xFFF .mem 0x1000)) := by decide

/-- T-CYC-6. -/
theorem test_unmapped_word_under_nop :
    ok 0x0123 { State.reset with dt := 2, st := 1 } (fun t => t.pc = 0x202 ∧ t.dt = 1 ∧ t.st = 0) = true := by decide

/-- T-CYC-7. -/
theorem test_unmapped_word_under_error :
    stepWith .error ((State.reset).withFetchWord 16 0x0123) = .fault (.unknownOpcode 0x200 0x0123) := rfl

/-! ### Control transfer -/

/-- T-CF-1. -/
theorem test_jp : ok 0x12A0 State.reset (fun t => t.pc = 0x2A0) = true := by decide

/-- T-CF-2. -/
theorem test_call :
    ok 0x2210 { State.reset with pc := 0x204 } (fun t => t.stack[0] = 0x206 ∧ t.sp = 1 ∧ t.pc = 0x210) = true := by
  decide

/-- T-CF-3. -/
theorem test_call_overflow : err 0x2400 { State.reset with pc := 0x300, sp := 16 } = some (.stackOverflow 0x300) := by
  decide

/-- T-CF-4. -/
theorem test_ret :
    ok 0x00EE { State.reset with pc := 0x210, sp := 1, stack := State.reset.stack.set 0 0x206 }
      (fun t => t.sp = 0 ∧ t.pc = 0x206 ∧ t.stack[0] = 0x206) = true := by decide

/-- T-CF-5. -/
theorem test_ret_underflow : err 0x00EE State.reset = some (.stackUnderflow 0x200) := by decide

/-- T-CF-8: the sum does not wrap at 12 bits. -/
theorem test_jp_v0 : ok 0xBFFF (regs [(0, 0xFF)]) (fun t => t.pc = 0x10FE) = true := by decide

/-- T-CF-9, T-CF-10. -/
theorem test_se_kk :
    ok 0x3310 (regs [(3, 0x10)]) (fun t => t.pc = 0x204) = true ∧
    ok 0x3310 (regs [(3, 0x11)]) (fun t => t.pc = 0x202) = true := by decide

/-- T-CF-11, T-CF-12. -/
theorem test_sne_kk :
    ok 0x4310 (regs [(3, 0x10)]) (fun t => t.pc = 0x202) = true ∧
    ok 0x4310 (regs [(3, 0x00)]) (fun t => t.pc = 0x204) = true := by decide

/-- T-CF-13, T-CF-14, at 0x200. -/
theorem test_se_reg :
    ok 0x5120 (regs [(1, 7), (2, 7)]) (fun t => t.pc = 0x204) = true ∧
    ok 0x5120 (regs [(1, 7), (2, 8)]) (fun t => t.pc = 0x202) = true := by decide

/-- T-CF-15, T-CF-16, at 0x200. -/
theorem test_sne_reg :
    ok 0x9120 (regs [(1, 7), (2, 8)]) (fun t => t.pc = 0x204) = true ∧
    ok 0x9440 (regs [(4, 0x99)]) (fun t => t.pc = 0x202) = true := by decide

/-- T-CF-17, T-CF-18. -/
theorem test_skp :
    ok 0xE59E (setKeysPort 0x0400 (regs [(5, 0xA)])) (fun t => t.pc = 0x204) = true ∧
    ok 0xE59E (regs [(5, 0xA)]) (fun t => t.pc = 0x202) = true := by decide

/-- T-CF-20. -/
theorem test_skp_key_16 : err 0xE59E (regs [(5, 0x10)]) = some (.memoryBounds 0x200 .keypad 0x10) := by decide

/-- T-CF-19. -/
theorem test_sknp :
    ok 0xE5A1 (regs [(5, 0xA)]) (fun t => t.pc = 0x204) = true ∧
    ok 0xE5A1 (setKeysPort 0x0400 (regs [(5, 0xA)])) (fun t => t.pc = 0x202) = true := by decide

/-! ### Register file and ALU -/

/-- T-ALU-2: VF as an ordinary destination. -/
theorem test_ld_kk : ok 0x6F01 (regs [(0xF, 0x77)]) (fun t => t.reg 0xF = 0x01) = true := by decide

/-- T-ALU-3: no carry to VF. -/
theorem test_add_kk :
    ok 0x7220 (regs [(2, 0xF0), (0xF, 0x33)]) (fun t => t.reg 2 = 0x10 ∧ t.reg 0xF = 0x33) = true := by decide

/-- T-ALU-5. -/
theorem test_ld_reg : ok 0x8010 (regs [(1, 0x33)]) (fun t => t.reg 0 = 0x33 ∧ t.reg 1 = 0x33) = true := by decide

/-- T-ALU-6. -/
theorem test_or :
    ok 0x8011 (regs [(0, 0x0C), (1, 0x0A), (0xF, 0x55)]) (fun t => t.reg 0 = 0x0E ∧ t.reg 0xF = 0x55) = true := by decide

/-- T-ALU-7. -/
theorem test_and : ok 0x8012 (regs [(0, 0x0C), (1, 0x0A)]) (fun t => t.reg 0 = 0x08) = true := by decide

/-- T-ALU-8, T-ALU-9. -/
theorem test_xor :
    ok 0x8013 (regs [(0, 0x0C), (1, 0x0A)]) (fun t => t.reg 0 = 0x06) = true ∧
    ok 0x8333 (regs [(3, 0x5A)]) (fun t => t.reg 3 = 0) = true := by decide

/-- T-ALU-11, T-ALU-14: VF overwritten with 0, and VF as the source. -/
theorem test_add_reg :
    ok 0x8014 (regs [(0, 0xFF), (1, 0), (0xF, 1)]) (fun t => t.reg 0 = 0xFF ∧ t.reg 0xF = 0) = true ∧
    ok 0x80F4 (regs [(0, 1), (0xF, 0xFF)]) (fun t => t.reg 0 = 0 ∧ t.reg 0xF = 1) = true := by decide

/-- T-ALU-13: the flag is written last. -/
theorem test_add_to_vf : ok 0x8F04 (regs [(0xF, 0x80), (0, 0x80)]) (fun t => t.reg 0xF = 1) = true := by decide

/-- S5, S11. -/
theorem test_sub :
    ok 0x8015 (regs [(0, 5), (1, 10)]) (fun t => t.reg 0 = 251 ∧ t.reg 0xF = 0) = true ∧
    ok 0x8015 (regs [(0, 7), (1, 7), (0xF, 1)]) (fun t => t.reg 0 = 0 ∧ t.reg 0xF = 0) = true := by decide

/-- T-ALU-17. -/
theorem test_sub_from_vf : ok 0x8F05 (regs [(0xF, 9), (0, 5)]) (fun t => t.reg 0xF = 1) = true := by decide

/-- T-ALU-19, T-ALU-20: Vy is not read, and the flag replaces the result in VF. -/
theorem test_shr :
    ok 0x8236 (regs [(2, 4), (3, 0xFF)]) (fun t => t.reg 2 = 2 ∧ t.reg 3 = 0xFF ∧ t.reg 0xF = 0) = true ∧
    ok 0x8F06 (regs [(0xF, 3)]) (fun t => t.reg 0xF = 1) = true := by decide

/-- T-ALU-21, T-ALU-22. -/
theorem test_subn :
    ok 0x8017 (regs [(0, 5), (1, 10)]) (fun t => t.reg 0 = 5 ∧ t.reg 0xF = 1) = true ∧
    ok 0x8017 (regs [(0, 10), (1, 5)]) (fun t => t.reg 0 = 251 ∧ t.reg 0xF = 0) = true := by decide

/-- T-ALU-24, T-ALU-26. -/
theorem test_shl :
    ok 0x820E (regs [(2, 0x81)]) (fun t => t.reg 2 = 2 ∧ t.reg 0xF = 1) = true ∧
    ok 0x8F0E (regs [(0xF, 0x40)]) (fun t => t.reg 0xF = 0) = true := by decide

/-- T-ALU-27. -/
theorem test_rnd :
    ok 0xC10F { State.reset with rndIn := some 0xB7 } (fun t => t.reg 1 = 7 ∧ t.draws = 1 ∧ t.rndIn = none) = true := by
  decide

/-- T-ALU-28: with kk = 0 the result is 0 whatever the draw, here a free value. -/
theorem test_rnd_mask_zero : ∃ t, exec (.rnd 1 0) State.reset = .next t ∧ t.reg 1 = 0 :=
  ⟨_, rfl, by simp [State.reg_def]⟩

/-! ### Index register, loads and stores -/

/-- T-MEM-1. -/
theorem test_ld_i : ok 0xA300 State.reset (fun t => t.i = 0x300) = true := by decide

/-- T-MEM-15, T-MEM-16: past the 12-bit range, no flag, and the wrap at 16 bits. -/
theorem test_add_i :
    ok 0xF01E { regs [(0, 1), (0xF, 0x44)] with i := 0x0FFF } (fun t => t.i = 0x1000 ∧ t.reg 0xF = 0x44) = true ∧
    ok 0xF01E { regs [(0, 1)] with i := 0xFFFF } (fun t => t.i = 0) = true := by decide

/-- T-MEM-17, T-MEM-19. -/
theorem test_ld_f :
    ok 0xF229 (regs [(2, 0xA)]) (fun t => t.i = 0x082) = true ∧
    ok 0xF229 (regs [(2, 0xFF)]) (fun t => t.i = 0x54B) = true := by decide

/-- S6. -/
theorem test_ld_b :
    ok 0xF033 { regs [(0, 157)] with i := 0x300 } (fun t => t.mem.readBytes 0x2FF 5 = [0, 1, 5, 7, 0] ∧ t.i = 0x300) =
      true := by decide

/-- T-MEM-5. -/
theorem test_ld_b_past_the_end :
    err 0xF033 { regs [(0, 100)] with i := 0xFFE } = some (.memoryBounds 0x200 .mem 0x1000) := by decide

/-- T-MEM-6. -/
theorem test_ld_mem_vx :
    ok 0xF155 { regs [(0, 1), (1, 2), (2, 3)] with i := 0x300 }
      (fun t => t.mem.readBytes 0x300 3 = [1, 2, 0] ∧ t.i = 0x300) = true := by decide

/-- T-MEM-10. -/
theorem test_ld_mem_vx_base_outside :
    err 0xF055 { State.reset with i := 0x1005 } = some (.memoryBounds 0x200 .mem 0x1005) := by decide

/-- T-MEM-11. -/
theorem test_ld_vx_mem :
    ok 0xF265 (put 0x300 [1, 5, 7, 9] { regs [(3, 0x44)] with i := 0x300 })
      (fun t => t.reg 0 = 1 ∧ t.reg 1 = 5 ∧ t.reg 2 = 7 ∧ t.reg 3 = 0x44 ∧ t.i = 0x300) = true := by decide

/-- T-MEM-13. -/
theorem test_ld_vx_mem_past_the_end :
    err 0xF265 { State.reset with i := 0xFFE, dt := 5 } = some (.memoryBounds 0x200 .mem 0x1000) := by decide

/-! ### Display -/

/-- T-DRW-1, with one pixel lit. -/
theorem test_cls :
    ok 0x00E0 { regs [(0xF, 7)] with fb := flipPixel clearedFb 9 9 }
      (fun t => t.fb = clearedFb ∧ t.reg 0xF = 7) = true := by decide

/-- T-DRW-5: the wrap from row 31 to rows 0 and 1. -/
theorem test_drw_wraps :
    ok 0xD013 (put 0x300 [0x80, 0x80, 0x80] { regs [(0, 0), (1, 31)] with i := 0x300 })
      (fun t => t.fb = flipPixel (flipPixel (flipPixel clearedFb 0 31) 0 0) 0 1 ∧ t.reg 0xF = 0) = true := by decide

/-- T-DRW-11: XOR and the collision. -/
theorem test_drw_collides :
    ok 0xD011 (put 0x300 [0xC0] { State.reset with i := 0x300, fb := flipPixel clearedFb 1 0 })
      (fun t => t.fb = flipPixel clearedFb 0 0 ∧ t.reg 0xF = 1) = true := by decide

/-- T-DRW-7 with its first and last columns: under CLIP nothing comes back at column 0. -/
theorem test_drw_clips :
    (match drawWith .clip 0 1 1 (put 0x300 [0xFF] { regs [(0, 62)] with i := 0x300 }) with
      | .next t => decide (t.fb = flipPixel (flipPixel clearedFb 62 0) 63 0)
      | .fault _ => false
      | .refused _ => false) = true := by decide

/-! ### Timers and keys -/

/-- T-TIM-3. -/
theorem test_ld_vx_dt : ok 0xF307 { State.reset with dt := 5 } (fun t => t.reg 3 = 5 ∧ t.dt = 4) = true := by decide

/-- T-TIM-1, first cycle, and T-TIM-6. -/
theorem test_ld_dt_vx :
    ok 0xF015 (regs [(0, 3)]) (fun t => t.dt = 2) = true ∧
    ok 0xF015 { regs [(0, 1)] with dt := 9 } (fun t => t.dt = 0) = true := by decide

/-- T-TIM-2, first cycle. -/
theorem test_ld_st_vx : ok 0xF118 (regs [(1, 3)]) (fun t => t.st = 2) = true := by decide

/-- T-KEY-1. -/
theorem test_ld_vx_k_waits :
    ok 0xF20A { regs [(2, 0x66)] with pc := 0x206, dt := 4 } (fun t => t.pc = 0x206 ∧ t.reg 2 = 0x66 ∧ t.dt = 3) =
      true := by decide

/-- T-KEY-2. -/
theorem test_ld_vx_k_least_key :
    ok 0xF20A (setKeysPort 0x0208 State.reset) (fun t => t.reg 2 = 3 ∧ t.pc = 0x202) = true := by decide

/-! ## The host's ports -/

/-- T-RST-1: the font is in place, with 0 on either side. -/
theorem test_reset_memory :
    State.reset.mem.readBytes 0x04F 6 = [0, 0xF0, 0x90, 0x90, 0x90, 0xF0] ∧
    State.reset.mem.readBytes 0x09B 6 = [0xF0, 0x80, 0xF0, 0x80, 0x80, 0] := by decide

/-- T-RST-5. -/
theorem test_load :
    transact (.load [0x12, 0x34]) { regs [(0, 9)] with pc := 0x456 } =
      (put 0x200 [0x12, 0x34] { regs [(0, 9)] with pc := 0x456 }, .ok) := by decide

/-- T-RST-4. -/
theorem test_load_too_long (s : State) :
    transact (.load (List.replicate 3585 0)) s = (s, .err 1 (.loadError 3585)) := by
  have h : wellFormedImage (List.replicate 3585 (0 : Byte)) = false :=
    decide_eq_false (by rw [List.length_replicate]; decide)
  rw [transact, loadPort, h, List.length_replicate]; rfl

/-- The five codes of spec/60_exceptions.md R280. -/
theorem test_error_codes :
    Fault.code (.loadError 3585) = 1 ∧ Fault.code (.stackOverflow 0) = 2 ∧ Fault.code (.stackUnderflow 0) = 3 ∧
    Fault.code (.memoryBounds 0 .keypad 16) = 4 ∧ Fault.code (.unknownOpcode 0 0) = 5 := by decide

/-- A write of the reset contents takes the cell out, so equal memories are equal lists. -/
theorem test_memory_is_canonical :
    Memory.writeBytes (Memory.writeBytes [] 0x300 [7, 8]) 0x300 [0, 8] = [(0x301, 8)] ∧
    Memory.write [(0x050, 1)] 0x050 0xF0 = [] ∧ Memory.wf [(0x301, 8), (0x300, 7)] = false ∧
    Memory.wf [(0x050, 0xF0)] = false ∧ Memory.wf [(0x1000, 1)] = false := by decide

/-! ## Witnesses: a state and operands that meet the hypotheses of each statement that has some -/

/-- The word `w` stored at PC of `s`. -/
def placed (w : Nat) (s : State) : State := s.withFetchWord 16 w

/-- The second clause at a canonical word and at one that is not, the third at the last PC that can fetch. -/
theorem witness_DecodeEncodeRoundTrip :
    decode 0x8354 = .ok (.addReg 3 5) ∧ wellFormedWord 0x8354 = true ∧
    decode 0x5121 = .ok (.seReg 1 2) ∧ wellFormedWord 0x5121 = false ∧
    (let i := Instr.addReg 3 5; let s := placed 0x8354 { State.reset with pc := 0xFFE }
     s.pc.toNat + 1 < 4096 ∧ s.mem.read s.pc.toNat = highByte (encode i) ∧
      s.mem.read (s.pc.toNat + 1) = lowByte (encode i)) := ⟨rfl, by decide, rfl, by decide, by decide⟩

theorem witness_DecodeFollowsTheOpcodeMap :
    let w : Word := 0xD0F5; let x : Reg := 0; let y : Reg := 15; let n : Fin 16 := 5; let kk : Byte := 0xF5
    let nnn : Addr12 := 0x0F5
    x.val = w.toNat / 2 ^ 8 % 2 ^ 4 ∧ y.val = w.toNat / 2 ^ 4 % 2 ^ 4 ∧ n.val = w.toNat % 2 ^ 4 ∧
      kk.toNat = w.toNat % 2 ^ 8 ∧ nnn.toNat = w.toNat % 2 ^ 12 := by decide

/-- One word of each unmapped family. -/
theorem witness_UnmappedWordsAreThoseOfTheFourFamilies :
    (0x0 = (0x0123 : Word).toNat / 4096 ∧ 0x3 = (0x0123 : Word).toNat % 16 ∧ 0x23 = (0x0123 : Word).toNat % 256) ∧
    (0x8 = (0x800F : Word).toNat / 4096 ∧ 0xF = (0x800F : Word).toNat % 16 ∧ 0x0F = (0x800F : Word).toNat % 256) ∧
    (0xE = (0xE39F : Word).toNat / 4096 ∧ 0xF = (0xE39F : Word).toNat % 16 ∧ 0x9F = (0xE39F : Word).toNat % 256) ∧
    (0xF = (0xF30B : Word).toNat / 4096 ∧ 0xB = (0xF30B : Word).toNat % 16 ∧ 0x0B = (0xF30B : Word).toNat % 256) := by
  decide

theorem witness_StepRunsTheDecodedInstruction :
    let s := placed 0x8354 { State.reset with pc := 0xFFE }
    s.pc.toNat + 1 < 4096 ∧
      decodeBytes [s.mem.read s.pc.toNat, s.mem.read (s.pc.toNat + 1)] = .ok (.addReg 3 5, []) :=
  ⟨by decide, rfl⟩

/-- Each clause at its boundary. -/
theorem witness_FetchOutsideMemoryFaults :
    ({ State.reset with pc := 0xFFE } : State).pc.toNat ≤ 0xFFE ∧
    ({ State.reset with pc := 0xFFF } : State).pc.toNat = 0xFFF ∧
    4096 ≤ ({ State.reset with pc := 0x1000 } : State).pc.toNat := by decide

theorem witness_UnmappedWordOnlyAdvancesAndTicks :
    fetch (placed 0x0123 State.reset) = .ok 0x0123 ∧ decode 0x0123 = .error (.family0 3) := ⟨rfl, rfl⟩

/-- A timer-writing word of each kind, FX07, and a word that does neither. -/
theorem witness_TimersTickInEverySuccessfulCycle :
    (fetch (placed 0xF015 State.reset) = .ok 0xF015 ∧ decode 0xF015 = .ok (.ldDtVx 0) ∧
      ∃ t, step (placed 0xF015 State.reset) = .next t) ∧
    (fetch (placed 0xF018 State.reset) = .ok 0xF018 ∧ decode 0xF018 = .ok (.ldStVx 0) ∧
      ∃ t, step (placed 0xF018 State.reset) = .next t) ∧
    (fetch (placed 0xF007 State.reset) = .ok 0xF007 ∧ decode 0xF007 = .ok (.ldVxDt 0) ∧
      ∃ t, step (placed 0xF007 State.reset) = .next t) :=
  ⟨⟨rfl, rfl, _, rfl⟩, ⟨rfl, rfl, _, rfl⟩, ⟨rfl, rfl, _, rfl⟩⟩

theorem witness_FailingCycleRepeatsItsError :
    (transact (.cycle 7) (placed 0x00EE State.reset)).2 = .err 3 (.stackUnderflow 0x200) := by decide

/-- Every disjunct of the error set is met, at its boundary. -/
theorem witness_CycleFailsExactlyAsTheErrorSetSays :
    step { State.reset with pc := 0xFFF } = .fault (.memoryBounds 0xFFF .mem 4096) ∧
    err 0x2400 { State.reset with sp := 16 } = some (.stackOverflow 0x200) ∧
    err 0x00EE State.reset = some (.stackUnderflow 0x200) ∧
    err 0xD011 { State.reset with i := 0x1000 } = some (.memoryBounds 0x200 .mem 0x1000) ∧
    err 0xD012 { State.reset with i := 0xFFF } = some (.memoryBounds 0x200 .mem 0x1000) ∧
    err 0xF033 { State.reset with i := 0xFFE } = some (.memoryBounds 0x200 .mem 0x1000) ∧
    err 0xFF55 { State.reset with i := 0xFF1 } = some (.memoryBounds 0x200 .mem 0x1000) ∧
    err 0xFF65 { State.reset with i := 0xFF1 } = some (.memoryBounds 0x200 .mem 0x1000) ∧
    err 0xE0A1 (regs [(0, 16)]) = some (.memoryBounds 0x200 .keypad 16) := ⟨rfl, by decide⟩

/-- A skip, a wait and a jump, each of which completes. -/
theorem witness_OnlyControlTransfersMovePc :
    (fetch (placed 0x3000 State.reset) = .ok 0x3000 ∧ ∃ t, step (placed 0x3000 State.reset) = .next t) ∧
    (fetch (placed 0xF00A State.reset) = .ok 0xF00A ∧ ∃ t, step (placed 0xF00A State.reset) = .next t) ∧
    (fetch (placed 0x12A0 State.reset) = .ok 0x12A0 ∧ ∃ t, step (placed 0x12A0 State.reset) = .next t) :=
  ⟨⟨rfl, _, rfl⟩, ⟨rfl, _, rfl⟩, ⟨rfl, _, rfl⟩⟩

/-- A register, a memory and a control instruction that answer a next state. -/
theorem witness_HandlerChangesOnlyWhatItsRuleWrites :
    (∃ t, exec (.addReg 3 5) State.reset = .next t) ∧ (∃ t, exec (.ldMemVx 15) State.reset = .next t) ∧
    ∃ t, exec (.callAddr 0x400) State.reset = .next t := ⟨⟨_, rfl⟩, ⟨_, rfl⟩, ⟨_, rfl⟩⟩

/-- A cycle that lights a pixel, and a cycle that fails. -/
theorem witness_OnlyClsAndDrwWriteTheFramebuffer :
    fetch (placed 0xD011 { State.reset with i := 0x50 }) = .ok 0xD011 ∧
    (match cyclePort 9 (placed 0xD011 { State.reset with i := 0x50 }) with
      | .next t => pixel t.fb 0 0 != pixel (placed 0xD011 { State.reset with i := 0x50 }).fb 0 0
      | .fault _ => false
      | .refused _ => false) = true ∧
    (transact (.cycle 0) { State.reset with pc := 0xFFF }).2 ≠ .ok := ⟨rfl, by decide, by decide⟩

/-- A store and a call that complete. -/
theorem witness_CycleWritersOfIndexStackKeypadAndMemory :
    (fetch (placed 0xF033 { State.reset with i := 0x300 }) = .ok 0xF033 ∧
      ∃ t, step (placed 0xF033 { State.reset with i := 0x300 }) = .next t) ∧
    (fetch (placed 0x2400 State.reset) = .ok 0x2400 ∧ ∃ t, step (placed 0x2400 State.reset) = .next t) :=
  ⟨⟨rfl, _, rfl⟩, ⟨rfl, _, rfl⟩⟩

/-- For the three statements about a result in Vx where x is not VF. -/
theorem witness_AddSubShift_destination_other_than_vf : (14 : Reg) ≠ regF := by decide

theorem witness_RandomByteIsTheMaskedDraw :
    ({ State.reset with rndIn := some 0xB7 } : State).rndIn = some 0xB7 ∧ (0x0F : Byte).getLsbD 7 = false ∧
    fetch (placed 0xC10F State.reset) = .ok 0xC10F ∧ decode 0xC10F = .ok (.rnd 1 0x0F) := ⟨rfl, rfl, rfl, rfl⟩

/-- SP at the two ends of each clause. -/
theorem witness_CallPushesTheReturnAddress :
    State.reset.sp.val < 16 ∧ ({ State.reset with sp := 15 } : State).sp.val < 16 ∧
    ({ State.reset with sp := 16 } : State).sp.val = 16 := by decide

theorem witness_ReturnPopsTheStack :
    ({ State.reset with sp := 1 } : State).sp.val = (0 : Fin 16).val + 1 ∧
    ({ State.reset with sp := 16 } : State).sp.val = (15 : Fin 16).val + 1 ∧ State.reset.sp.val = 0 := by decide

/-- The last call that fits, and a subroutine that changed a register and PC. -/
theorem witness_CallThenReturnComesBack :
    ∃ t u : State, exec (.callAddr 0x400) { State.reset with sp := 15 } = .next t ∧ u.sp = t.sp ∧ u.stack = t.stack ∧
      u.pc ≠ t.pc ∧ u.v ≠ t.v := by
  let u : State := { regs [(3, 9)] with sp := 16, pc := 0x408, stack := State.reset.stack.set 15 0x200 }
  exact ⟨_, u, rfl, rfl, rfl, by decide, by decide⟩

/-- Keys 0 and 15, and the first index past them. -/
theorem witness_KeySkipsFollowTheKey :
    (State.reset.reg 5).toNat = (0 : Fin 16).val ∧ ((regs [(5, 15)]).reg 5).toNat = (15 : Fin 16).val ∧
    (setKeysPort 0x8000 (regs [(5, 15)])).key[(15 : Fin 16)] = true ∧ 16 ≤ ((regs [(5, 16)]).reg 5).toNat := by decide

/-- The last base that fits and the first that does not. -/
theorem witness_BcdStoresTheDecimalDigits :
    State.reset.mem.wf = true ∧ ({ State.reset with i := 0xFFD } : State).i.toNat + 2 < 4096 ∧
    4096 ≤ ({ State.reset with i := 0xFFE } : State).i.toNat + 2 := by decide

theorem witness_StoreRegistersToMemory :
    State.reset.mem.wf = true ∧ ({ State.reset with i := 0xFF0 } : State).i.toNat + (15 : Reg).val < 4096 ∧
    4096 ≤ ({ State.reset with i := 0xFF1 } : State).i.toNat + (15 : Reg).val := by decide

theorem witness_LoadRegistersFromMemory :
    ({ State.reset with i := 0xFFF } : State).i.toNat + (0 : Reg).val < 4096 ∧
    4096 ≤ ({ State.reset with i := 0x1000 } : State).i.toNat + (0 : Reg).val := by decide

theorem witness_StoreThenLoadBringsRegistersBack :
    let s : State := { regs [(0, 1), (1, 2)] with i := 0xFFE }
    s.mem.wf = true ∧ ∃ t, exec (.ldMemVx 1) s = .next t := ⟨by decide, _, rfl⟩

/-- F155 at 0x200 with I = 0x202: the stored bytes are the next instruction, k = 0. -/
theorem witness_StoredBytesAreFetchedByTheNextCycle :
    let s := placed 0xF155 { regs [(0, 0x12), (1, 0x34)] with i := 0x202 }
    s.mem.wf = true ∧ fetch s = .ok 0xF155 ∧ decode 0xF155 = .ok (.ldMemVx 1) ∧ (∃ t, step s = .next t) ∧
      s.pc.toNat + 2 = s.i.toNat + 0 ∧ (0 : Reg).val = 0 ∧ (1 : Reg).val = 0 + 1 ∧ (1 : Reg) ≤ 1 :=
  ⟨by decide, rfl, rfl, ⟨_, rfl⟩, by decide, by decide, by decide, by decide⟩

/-- n = 0 with I outside memory, the last window that fits, the first that does not, and a covered pixel that is lit. -/
theorem witness_DrawIsXorWithCollisionFlag :
    ((0 : Fin 16).val = 0 ∨ ({ State.reset with i := 0x2000 } : State).i.toNat + (0 : Fin 16).val ≤ 4096) ∧
    ((15 : Fin 16).val = 0 ∨ ({ State.reset with i := 0xFF1 } : State).i.toNat + (15 : Fin 16).val ≤ 4096) ∧
    (0 < (15 : Fin 16).val ∧ 4096 ≤ ({ State.reset with i := 0xFF2 } : State).i.toNat + (15 : Fin 16).val - 1) ∧
    ∃ s : State, SpriteCovers .wrap 0 1 1 s 1 0 ∧ SpriteCovers .clip 0 1 1 s 1 0 ∧ pixel s.fb 1 0 = true :=
  ⟨by decide, by decide, by decide, { State.reset with i := 0x50, fb := flipPixel clearedFb 1 0 },
    ⟨0, 1, by decide, by decide, by decide, by decide⟩, ⟨0, 1, by decide, by decide, by decide, by decide⟩, by decide⟩

/-- No pixel is covered by a sprite of no rows, so none of them is lit. -/
theorem witness_DrawIsXorWithCollisionFlag_no_collision (px : Fin 64) (py : Fin 32) :
    SpriteCovers .wrap 0 1 0 State.reset px py → pixel State.reset.fb px py = false := by
  rintro ⟨r, b, h, -⟩
  exact absurd h (Nat.not_lt_zero r)

theorem witness_DrawingTwiceRestoresTheScreen :
    (0 : Reg) ≠ regF ∧ (1 : Reg) ≠ regF ∧ ∃ t, exec (.drw 0 1 5) { State.reset with i := 0x50 } = .next t :=
  ⟨by decide, by decide, _, rfl⟩

/-- Keys 3 and 9 pressed, the least of them 3; no key pressed, and FX0A at PC. -/
theorem witness_WaitForKeyTakesTheLeastKeyOrRepeats :
    ((setKeysPort 0x0208 State.reset).key[(3 : Fin 16)] = true ∧
      ∀ j < (3 : Fin 16), (setKeysPort 0x0208 State.reset).key[j] = false) ∧
    (∀ k : Fin 16, (placed 0xF20A State.reset).key[k] = false) ∧
    fetch (placed 0xF20A State.reset) = .ok 0xF20A ∧ decode 0xF20A = .ok (.ldVxK 2) :=
  ⟨by decide, by decide, rfl, rfl⟩

theorem witness_LoadCopiesTheImageOrRefusesIt :
    State.reset.mem.wf = true ∧ (List.replicate 3584 (0xAA : Byte)).length ≤ 3584 ∧
    3584 < (List.replicate 3585 (0xAA : Byte)).length :=
  ⟨by decide, by rw [List.length_replicate], by rw [List.length_replicate]; decide⟩

theorem witness_SetKeysWritesOnlyTheKeypad : ∃ u, step (placed 0xF00A State.reset) = .next u := ⟨_, rfl⟩

theorem witness_ResetLeavesTheResetState :
    transact .reset (regs [(0, 9)]) = (State.reset, .ok) := by decide

theorem witness_DrawIsReadOnlyByRnd :
    fetch (placed 0x8354 State.reset) = .ok 0x8354 ∧ (∀ x kk, decode 0x8354 ≠ .ok (.rnd x kk)) ∧
    ∃ t, cyclePort 7 (placed 0x8354 State.reset) = .next t :=
  ⟨rfl, (fun _ _ h => nomatch (show decode 0x8354 = .ok (.addReg 3 5) from rfl).symm.trans h), _, rfl⟩

/-- A word that completes and one that fails, neither of which reads a key. -/
theorem witness_KeypadIsReadOnlyByKeyInstructions :
    (fetch (placed 0x8354 State.reset) = .ok 0x8354 ∧
      (∀ x, decode 0x8354 ≠ .ok (.skp x) ∧ decode 0x8354 ≠ .ok (.sknp x) ∧ decode 0x8354 ≠ .ok (.ldVxK x)) ∧
      ∃ t, step (placed 0x8354 State.reset) = .next t) ∧
    step (placed 0x00EE State.reset) = .fault (.stackUnderflow 0x200) := by
  have h : decode 0x8354 = .ok (.addReg 3 5) := rfl
  exact ⟨⟨rfl, fun x => by rw [h]; simp, _, rfl⟩, rfl⟩

theorem witness_SoundTimerIsNeverRead :
    (∃ t, step (placed 0xF018 { State.reset with st := 5 }) = .next t) ∧
    step (placed 0x00EE { State.reset with st := 5 }) = .fault (.stackUnderflow 0x200) := ⟨⟨_, rfl⟩, rfl⟩

/-- SP = 1: entry 0 is live, entry 1 is stale and differs; a RET completes and a fetch fails. -/
theorem witness_StaleStackEntriesAreUnobservable :
    let s := placed 0x00EE { State.reset with sp := 1 }
    SameButStaleEntries s { s with stack := s.stack.set 1 0xABC } ∧ s.stack ≠ s.stack.set 1 0xABC ∧
    (∃ t, step s = .next t) ∧ step { s with pc := 0xFFF } = .fault (.memoryBounds 0xFFF .mem 4096) :=
  ⟨⟨rfl, by decide⟩, by decide, ⟨_, rfl⟩, rfl⟩

/-- For the two statements that keep the invariant: a state that meets it from which a cycle completes. -/
theorem witness_StepKeepsTheInvariant :
    Inv (placed 0x2400 State.reset) ∧ ∃ t, step (placed 0x2400 State.reset) = .next t :=
  ⟨⟨by decide, by decide, by decide⟩, _, rfl⟩

/-- A jump to itself with both timers running. -/
def looping : State := placed 0x1200 { State.reset with dt := 3, st := 1 }

/-- One cycle of it. -/
theorem witness_TimersReachZeroAndStay :
    ∃ run : Nat → State, (∀ k < 1, step (run k) = .next (run (k + 1))) ∧
      (∀ k < 1, ∀ w x, fetch (run k) = .ok w → decode w ≠ .ok (.ldDtVx x) ∧ decode w ≠ .ok (.ldStVx x)) ∧
      (run 0).dt = 3 := by
  have e : fetch looping = .ok 0x1200 := rfl
  have hs : step looping = .next { looping with dt := 2, st := 0 } := rfl
  refine ⟨fun k => if k = 0 then looping else { looping with dt := 2, st := 0 }, ?_, ?_, rfl⟩
  · intro k hk
    obtain rfl : k = 0 := by omega
    exact hs
  · intro k hk w x hf
    obtain rfl : k = 0 := by omega
    obtain rfl : (0x1200 : Word) = w := by
      have := e.symm.trans hf
      injection this
    have hd : decode 0x1200 = .ok (.jpAddr 0x200) := rfl
    exact ⟨by rw [hd]; simp, by rw [hd]; simp⟩

end Sys2Proof.Tests
end

section
/-! The family of spec/10_state.md: what an instruction and a cycle leave unchanged (R34, R37 to R42), the invariant that
every cycle keeps (R36), the pieces of state that a cycle does not observe (R38, R40, R42), and the ports (R46 to R48). -/

namespace Sys2Proof.Machine

/-! ## Frames

`Keeps` compares part by part as the host can read them; the proofs use the stronger equality of the fields. -/

/-- Part `p` is the same field value in `t` as in `s`. -/
def Same (p : Part) (s t : State) : Prop :=
  match p with
  | .regs => t.v = s.v
  | .i => t.i = s.i
  | .pc => t.pc = s.pc
  | .stack => t.stack = s.stack
  | .sp => t.sp = s.sp
  | .dt => t.dt = s.dt
  | .st => t.st = s.st
  | .mem => t.mem = s.mem
  | .fb => t.fb = s.fb
  | .key => t.key = s.key
  | .draw => t.rndIn = s.rndIn ∧ t.draws = s.draws

theorem Same.keeps {p : Part} {s t : State} (h : Same p s t) : Keeps p s t := by
  cases p <;> simp_all [Same, Keeps, State.reg_def]

theorem Same.trans {p : Part} {s t u : State} (h : Same p s t) (h' : Same p t u) : Same p s u := by
  cases p <;> simp_all [Same]

theorem advance_same {s : State} {p : Part} (hp : p ≠ .pc) : Same p s s.advance := by
  cases p <;> simp [Same] at hp ⊢

theorem endCycle_same {s : State} {p : Part} (hp : p ∉ [.dt, .st, .draw]) : Same p s (endCycle s) := by
  cases p <;> simp [Same] at hp ⊢

theorem setKeysPort_same {k : BitVec 16} {s : State} {p : Part} (hp : p ∉ [.key]) : Same p s (setKeysPort k s) := by
  cases p <;> simp [Same] at hp ⊢

/-- The frame of every handler: each arm names the state the handler answers, and its fields are then compared. -/
theorem exec_same {i : Instr} {s t : State} {p : Part} (h : exec i s = .next t) (hp : p ∉ writes i) : Same p s t := by
  cases i with
  | ret => obtain ⟨_, rfl⟩ := ret_eq_next.1 h; cases p <;> simp [writes, Same] at hp ⊢
  | callAddr nnn => obtain ⟨_, rfl⟩ := call_eq_next.1 h; cases p <;> simp [writes, Same] at hp ⊢
  | skp x | sknp x =>
    simp only [exec_skp, exec_sknp, withKey_eq_next] at h
    obtain ⟨_, rfl⟩ := h
    cases p <;> simp [writes, Same] at hp ⊢
  | ldB x | ldMemVx x | ldVxMem x | drw x y n =>
    obtain ⟨_, rfl⟩ := withWindow_eq_next.1 h
    cases p <;> simp [writes, Same] at hp ⊢
  | ldVxK x =>
    obtain ⟨k, _, rfl⟩ | ⟨_, rfl⟩ := (exec_ldVxK_eq_next ..).1 h <;> cases p <;> simp [writes, Same] at hp ⊢
  | _ => obtain rfl := Host.Outcome.next.inj h; cases p <;> simp [writes, Same] at hp ⊢

theorem exec_onlyRegs {i : Instr} {s t : State} (h : exec i s = .next t) : OnlyRegs (writtenRegs i) s t := by
  intro r hr
  cases i with
  | ldKk x | addKk x | ldReg x | orReg x | andReg x | xorReg x | rnd x | ldVxDt x =>
    obtain rfl := Host.Outcome.next.inj h
    exact State.reg_setReg_other s _ (by simpa [writtenRegs] using hr)
  | addReg x | subReg x | shr x | subnReg x | shl x =>
    obtain rfl := Host.Outcome.next.inj h
    obtain ⟨hx, hf⟩ : r ≠ x ∧ r ≠ regF := by simpa [writtenRegs] using hr
    exact State.reg_setRegFlag_other s _ _ hx hf
  | drw x y n =>
    obtain ⟨_, rfl⟩ := withWindow_eq_next.1 h
    exact State.reg_setReg_other _ _ (by simpa [writtenRegs] using hr)
  | ldVxK x =>
    obtain ⟨k, _, rfl⟩ | ⟨_, rfl⟩ := (exec_ldVxK_eq_next ..).1 h
    · exact State.reg_setReg_other s _ (by simpa [writtenRegs] using hr)
    · rfl
  | ldVxMem x =>
    obtain ⟨_, rfl⟩ := withWindow_eq_next.1 h
    exact (getElem_loadRegs ..).trans (if_neg (by simpa [writtenRegs] using hr))
  | _ => exact (exec_same (p := .regs) h (by simp [writes])).keeps r

theorem exec_onlyBytes {i : Instr} {s t : State} (h : exec i s = .next t) :
    OnlyBytes (storedWindow i s).1 (storedWindow i s).2 s t := by
  intro a ha
  cases i with
  | ldB x =>
    obtain ⟨_, rfl⟩ := withWindow_eq_next.1 h
    exact Memory.read_writeBytes_outside _ ha
  | ldMemVx x =>
    obtain ⟨_, rfl⟩ := withWindow_eq_next.1 h
    exact Memory.read_writeBytes_outside _ (by simpa [storedWindow] using ha)
  | _ => exact (exec_same (p := .mem) h (by simp [writes])).keeps a

/-- Settles O13, part by part (`exec_same`), register by register and byte by byte. -/
theorem handlerChangesOnlyWhatItsRuleWrites : Obligations.HandlerChangesOnlyWhatItsRuleWrites :=
  fun _ _ _ h => ⟨fun _ hp => (exec_same h hp).keeps, exec_onlyRegs h, exec_onlyBytes h⟩

/-! ## Who writes a part in a whole cycle -/

/-- A part that the cycle itself does not move is as before, unless the fetched instruction writes it. -/
theorem cycle_same_or_writes {s t : State} {w : Word} {p : Part} (hf : fetch s = .ok w) (hs : step s = .next t)
    (hp : p ∉ [.pc, .dt, .st, .draw]) : Same p s t ∨ ∃ i, decode w = .ok i ∧ p ∈ writes i := by
  obtain ⟨hpc, hend⟩ : p ≠ .pc ∧ p ∉ [.dt, .st, .draw] := by simpa using hp
  obtain ⟨u, rfl, ⟨e, -, rfl⟩ | ⟨i, hi, hx⟩⟩ := step_next_cases hf hs
  · exact .inl ((advance_same hpc).trans (endCycle_same hend))
  · by_cases hw : p ∈ writes i
    · exact .inr ⟨i, hi, hw⟩
    · exact .inl ((advance_same hpc).trans ((exec_same hx hw).trans (endCycle_same hend)))

theorem key_notMem_writes (i : Instr) : .key ∉ writes i := by cases i <;> simp [writes]

theorem i_mem_writes {i : Instr} (h : .i ∈ writes i) : ∃ x nnn, i = .ldI nnn ∨ i = .addI x ∨ i = .ldF x := by
  cases i <;> simp [writes] at h ⊢

theorem sp_mem_writes {i : Instr} (h : .sp ∈ writes i) : i = .ret ∨ ∃ nnn, i = .callAddr nnn := by
  cases i <;> simp [writes] at h ⊢

theorem stack_mem_writes {i : Instr} (h : .stack ∈ writes i) : ∃ nnn, i = .callAddr nnn := by
  cases i <;> simp [writes] at h ⊢

theorem mem_mem_writes {i : Instr} (h : .mem ∈ writes i) : ∃ x, i = .ldB x ∨ i = .ldMemVx x := by
  cases i <;> simp [writes] at h ⊢

theorem storedWindow_advance (i : Instr) (s : State) : storedWindow i s.advance = storedWindow i s := by
  cases i <;> rfl

theorem step_key {s t : State} (hs : step s = .next t) : t.key = s.key := by
  obtain ⟨w, _, hf, -, -⟩ := step_eq_next.1 hs
  exact (cycle_same_or_writes (p := .key) hf hs (by simp)).resolve_right fun ⟨i, _, hw⟩ => key_notMem_writes i hw

/-- A byte that a cycle changes lies in the window its instruction stores to. -/
theorem step_mem_changed {s t : State} {w : Word} {a : Nat} (hf : fetch s = .ok w) (hs : step s = .next t)
    (ha : t.mem.read a ≠ s.mem.read a) :
    ∃ i, decode w = .ok i ∧ .mem ∈ writes i ∧
      (storedWindow i s).1 ≤ a ∧ a < (storedWindow i s).1 + (storedWindow i s).2 := by
  obtain ⟨u, rfl, ⟨e, -, rfl⟩ | ⟨i, hi, hx⟩⟩ := step_next_cases hf hs
  · exact absurd rfl ha
  · have hw : .mem ∈ writes i := by_contra fun hw => ha ((exec_same hx hw).keeps a)
    have hin : ¬(a < (storedWindow i s).1 ∨ (storedWindow i s).1 + (storedWindow i s).2 ≤ a) := fun hout =>
      ha (exec_onlyBytes hx a (by rwa [storedWindow_advance]))
    exact ⟨i, hi, hw, by omega, by omega⟩

/-- Settles O15: each part changes only by an instruction that writes it, and `writes` names those. -/
theorem cycleWritersOfIndexStackKeypadAndMemory : Obligations.CycleWritersOfIndexStackKeypadAndMemory := by
  intro s t w hf hs
  refine ⟨step_key hs, fun hne => ?_, fun hne => ?_, fun hne => ?_, fun a ha => ?_⟩
  · obtain ⟨i, hi, hw⟩ := (cycle_same_or_writes (p := .i) hf hs (by simp)).resolve_left hne
    obtain ⟨x, nnn, rfl | rfl | rfl⟩ := i_mem_writes hw <;> exact ⟨x, nnn, by simp [hi]⟩
  · obtain ⟨i, hi, hw⟩ := (cycle_same_or_writes (p := .sp) hf hs (by simp)).resolve_left hne
    obtain rfl | ⟨nnn, rfl⟩ := sp_mem_writes hw
    · exact .inl hi
    · exact .inr ⟨nnn, hi⟩
  · obtain ⟨i, hi, hw⟩ := (cycle_same_or_writes (p := .stack) hf hs (by simp)).resolve_left hne
    obtain ⟨nnn, rfl⟩ := stack_mem_writes hw
    exact ⟨nnn, hi⟩
  · obtain ⟨i, hi, hw, hlo, hhi⟩ := step_mem_changed hf hs ha
    obtain ⟨x, rfl | rfl⟩ := mem_mem_writes hw
    · exact ⟨x, .inl ⟨hi, hlo, hhi⟩⟩
    · exact ⟨x, .inr ⟨hi, hlo, Nat.lt_succ_iff.1 hhi⟩⟩

/-! ## The invariant -/

theorem exec_keeps_memory_wf {i : Instr} {s t : State} (h : exec i s = .next t) (hm : s.mem.wf = true) :
    t.mem.wf = true := by
  cases i with
  | ldB x =>
    obtain ⟨hin, rfl⟩ := withWindow_eq_next.1 h
    exact Memory.wf_writeBytes _ _ hm (((windowInside_iff ..).1 hin).resolve_left (by simp))
  | ldMemVx x =>
    obtain ⟨hin, rfl⟩ := withWindow_eq_next.1 h
    exact Memory.wf_writeBytes _ _ hm
      (by rw [length_regsUpTo]; exact ((windowInside_iff ..).1 hin).resolve_left (by simp))
  | _ => exact (exec_same (p := .mem) h (by simp [writes])).symm ▸ hm

/-- CALL pushes the handler's PC, which a successful fetch bounds by 0x1000 (spec/41_control_flow.md R150). -/
theorem exec_keeps_stackBounded {i : Instr} {s t : State} (h : exec i s = .next t) (hpc : s.pc.toNat ≤ 0x1000)
    (hst : StackBounded s) : StackBounded t := by
  cases i with
  | callAddr nnn =>
    obtain ⟨hsp, rfl⟩ := call_eq_next.1 h
    intro j
    simp only [Fin.getElem_fin, Vector.getElem_set]
    split
    · exact hpc
    · exact hst j
  | _ =>
    have hsame : t.stack = s.stack := exec_same (p := .stack) h (by simp [writes])
    exact fun j => hsame ▸ hst j

theorem skipIf_pcBounded {s : State} (c : Bool) (hhi : s.pc.toNat ≤ 0x1000) : PcBounded (s.skipIf c) := by
  rw [PcBounded, State.skipIf_pc]
  split <;> bv_omega

/-- A handler's PC is 2 to 0x1000 after a successful fetch. The lower bound keeps FX0A's step back from wrapping. -/
theorem exec_pcBounded {i : Instr} {s t : State} (h : exec i s = .next t) (hlo : 2 ≤ s.pc.toNat)
    (hhi : s.pc.toNat ≤ 0x1000) (hst : StackBounded s) : PcBounded t := by
  cases i with
  | seKk | sneKk | seReg | sneReg =>
    obtain rfl := Host.Outcome.next.inj h
    exact skipIf_pcBounded _ hhi
  | skp | sknp =>
    simp only [exec_skp, exec_sknp, withKey_eq_next] at h
    obtain ⟨_, rfl⟩ := h
    exact skipIf_pcBounded _ hhi
  | ret =>
    obtain ⟨hsp, rfl⟩ := ret_eq_next.1 h
    exact (hst ⟨s.sp.val - 1, by omega⟩).trans (by decide)
  | callAddr nnn =>
    obtain ⟨hsp, rfl⟩ := call_eq_next.1 h
    exact (toNat_addrOf nnn).trans_le (by omega)
  | jpAddr nnn =>
    obtain rfl := Host.Outcome.next.inj h
    exact (toNat_addrOf nnn).trans_le (by omega)
  | jpV0 nnn =>
    obtain rfl := Host.Outcome.next.inj h
    exact (toNat_offsetTarget ..).trans_le (by omega)
  | ldVxK x =>
    obtain ⟨k, _, rfl⟩ | ⟨_, rfl⟩ := (exec_ldVxK_eq_next ..).1 h
    · exact hhi.trans (by decide)
    · change (s.pc - 2).toNat ≤ 0x10FE
      bv_omega
  | _ =>
    have hsame : t.pc = s.pc := exec_same (p := .pc) h (by simp [writes])
    rw [PcBounded, hsame]
    exact hhi.trans (by decide)

/-- Settles O49: a fetch succeeds only below 0xFFF, so the handler starts with PC in 2..0x1000, and each part of the
invariant is kept from there. -/
theorem stepKeepsTheInvariant : Obligations.StepKeepsTheInvariant := by
  intro s t ⟨hm, _, hst⟩ hs
  obtain ⟨w, _, hf, -, -⟩ := step_eq_next.1 hs
  have hfetched : s.pc.toNat + 1 < 4096 := (fetch_eq_ok.1 hf).1
  have hadv : s.advance.pc.toNat = s.pc.toNat + 2 := by rw [State.advance_pc]; bv_omega
  obtain ⟨u, rfl, ⟨e, -, rfl⟩ | ⟨i, -, hx⟩⟩ := step_next_cases hf hs
  · exact ⟨hm, hadv.trans_le (by omega), hst⟩
  · have hu : Inv u := ⟨exec_keeps_memory_wf hx hm, exec_pcBounded hx (by omega) (by omega) hst,
      exec_keeps_stackBounded hx (by omega) hst⟩
    exact ⟨hu.memory, hu.pc, hu.stack⟩

/-! ## What a cycle does not observe

One relation and one walk over the instructions for every such piece of the state. -/

/-- A piece of the state that most instructions do not read. -/
inductive Hidden where
  /-- The keypad (spec/10_state.md R42). -/
  | key
  /-- The sound timer (R40). -/
  | st
  /-- The stack entries at SP or above (R38). -/
  | stale
  /-- The draw that the transaction in progress brings (R44). -/
  | draw

/-- The instructions that read a hidden piece: EX9E, EXA1 and FX0A the keypad, CXKK the draw; none reads ST or a stale
stack entry. -/
def reads (i : Instr) (h : Hidden) : Prop :=
  match h with
  | .key => ∃ x, i = .skp x ∨ i = .sknp x ∨ i = .ldVxK x
  | .draw => ∃ x kk, i = .rnd x kk
  | .st | .stale => False

/-- `s` and `s'` agree on everything but the hidden piece `h`. -/
structure SameBut (h : Hidden) (s s' : State) : Prop where
  v : s'.v = s.v
  i : s'.i = s.i
  pc : s'.pc = s.pc
  stack : ∀ j : Fin 16, (h = .stale → j.val < s.sp.val) → s'.stack[j] = s.stack[j]
  sp : s'.sp = s.sp
  dt : s'.dt = s.dt
  st : h ≠ .st → s'.st = s.st
  mem : s'.mem = s.mem
  fb : s'.fb = s.fb
  key : h ≠ .key → s'.key = s.key
  rndIn : h ≠ .draw → s'.rndIn = s.rndIn
  draws : s'.draws = s.draws

/-- Two answers alike: next states that agree but for `h`, or one error, or one refusal. -/
inductive AnswersAlike (h : Hidden) : Result → Result → Prop where
  | next {t t' : State} (r : SameBut h t t') : AnswersAlike h (.next t) (.next t')
  | fault (e : Fault) : AnswersAlike h (.fault e) (.fault e)
  | refused (x : Refusal) : AnswersAlike h (.refused x) (.refused x)

theorem AnswersAlike.of_next {h : Hidden} {t : State} {a a' : Result} (al : AnswersAlike h a a') (ha : a = .next t) :
    ∃ t', a' = .next t' ∧ SameBut h t t' := by
  subst ha
  cases al with
  | next r => exact ⟨_, rfl, r⟩

theorem AnswersAlike.of_fault {h : Hidden} {e : Fault} {a a' : Result} (al : AnswersAlike h a a')
    (ha : a = .fault e) : a' = .fault e := by
  subst ha
  cases al
  rfl

theorem SameBut.refl (h : Hidden) (s : State) : SameBut h s s :=
  ⟨rfl, rfl, rfl, fun _ _ => rfl, rfl, rfl, fun _ => rfl, rfl, rfl, fun _ => rfl, fun _ => rfl, rfl⟩

theorem SameBut.setKey (key : Vector Bool 16) (s : State) : SameBut .key s { s with key := key } :=
  { SameBut.refl .key s with key := fun hne => (hne rfl).elim }

theorem SameBut.setSt (b : Byte) (s : State) : SameBut .st s { s with st := b } :=
  { SameBut.refl .st s with st := fun hne => (hne rfl).elim }

namespace SameBut

variable {h : Hidden} {s s' : State} (r : SameBut h s s')
include r

/-! ### The updates of the state keep the relation -/

theorem setReg (x : Reg) (b : Byte) : SameBut h (s.setReg x b) (s'.setReg x b) := { r with v := by simp [r.v] }

theorem setRegFlag (x : Reg) (b f : Byte) : SameBut h (s.setRegFlag x b f) (s'.setRegFlag x b f) :=
  (r.setReg x b).setReg regF f

theorem setI (w : Word) : SameBut h (s.setI w) (s'.setI w) := { r with i := rfl }

theorem setPc (w : Word) : SameBut h (s.setPc w) (s'.setPc w) := { r with pc := rfl }

theorem advance : SameBut h s.advance s'.advance := { r with pc := by simp [r.pc] }

theorem skipIf (c : Bool) : SameBut h (s.skipIf c) (s'.skipIf c) := by
  cases c
  · exact r
  · exact r.advance

theorem endCycle_sameBut : SameBut h (endCycle s) (endCycle s') :=
  { r with dt := by simp [r.dt], st := fun hne => by simp [r.st hne], rndIn := fun _ => rfl }

/-! ### What related states give alike -/

theorem reg (x : Reg) : s'.reg x = s.reg x := by rw [State.reg_def, State.reg_def, r.v]

theorem regsUpTo (x : Reg) : s'.regsUpTo x = s.regsUpTo x := by rw [State.regsUpTo, State.regsUpTo, r.v]

theorem base : s'.base = s.base := by rw [State.base, State.base, r.i]

theorem pc0 : s'.pc0 = s.pc0 := by rw [State.pc0, State.pc0, r.pc]

theorem fetch_eq : fetch s' = fetch s := by rw [fetch, fetch, r.mem, r.pc]

theorem stack_eq (hne : h ≠ .stale) : s'.stack = s.stack :=
  Vector.ext fun j hj => r.stack ⟨j, hj⟩ fun hh => absurd hh hne

/-- Only the four fields that hold hidden pieces can differ. -/
theorem eq_update : s' = { s with stack := s'.stack, st := s'.st, key := s'.key, rndIn := s'.rndIn } := by
  obtain ⟨⟩ := s'
  simp only [State.mk.injEq, true_and]
  exact ⟨r.v, r.i, r.pc, r.sp, r.dt, r.mem, r.fb, r.draws⟩

/-! ### The operations that can raise -/

theorem withWindow_alike (a len : Nat) {k k' : State} (rk : SameBut h k k') :
    AnswersAlike h (withWindow a len s k) (withWindow a len s' k') := by
  unfold withWindow
  split
  · exact .next rk
  · rw [r.pc0]; exact .fault _

theorem withKey_alike (b : Byte) {k : Bool → State → State} (hkey : s'.key = s.key)
    (rk : ∀ c, SameBut h (k c s) (k c s')) : AnswersAlike h (withKey b s (k · s)) (withKey b s' (k · s')) := by
  unfold withKey
  split
  · simp only [hkey]; exact .next (rk _)
  · rw [r.pc0]; exact .fault _

/-- RET reads the entry below SP, which is live. -/
theorem ret_alike : AnswersAlike h (ret s) (ret s') := by
  by_cases hsp : 0 < s.sp.val
  · have htop := r.stack ⟨s.sp.val - 1, by omega⟩ fun _ => Nat.sub_lt hsp Nat.one_pos
    rw [ret_eq_next.2 ⟨hsp, rfl⟩, ret_eq_next.2 ⟨r.sp ▸ hsp, rfl⟩]
    exact .next { r with
      pc := by simpa [r.sp] using htop
      sp := by simp [r.sp]
      stack := fun j hj => r.stack j fun hh => (hj hh).trans_le (Nat.sub_le ..) }
  · have h0 : s.sp = 0 := Fin.ext (by simpa using hsp)
    rw [ret_eq_fault.2 ⟨h0, rfl⟩, ret_eq_fault.2 ⟨r.sp.trans h0, rfl⟩, r.pc0]
    exact .fault _

/-- CALL makes one stale entry live, and writes it. -/
theorem call_alike (w : Word) : AnswersAlike h (call w s) (call w s') := by
  by_cases hsp : s.sp.val < 16
  · rw [call_eq_next.2 ⟨hsp, rfl⟩, call_eq_next.2 ⟨r.sp ▸ hsp, rfl⟩]
    refine .next { r with pc := rfl, sp := by simp [r.sp], stack := fun j hj => ?_ }
    simp only [Fin.getElem_fin, Vector.getElem_set, r.sp, r.pc]
    split
    · rfl
    · exact r.stack j fun hh => by have hlt : j.val < s.sp.val + 1 := hj hh; omega
  · have h16 : s.sp = 16 := Fin.ext (by simp; omega)
    rw [call_eq_fault.2 ⟨h16, rfl⟩, call_eq_fault.2 ⟨r.sp.trans h16, rfl⟩, r.pc0]
    exact .fault _

theorem ldVxK_alike (x : Reg) (hkey : s'.key = s.key) :
    AnswersAlike h (exec (.ldVxK x) s) (exec (.ldVxK x) s') := by
  cases hk : firstKey s.key with
  | some k =>
    rw [exec_ldVxK_of_key _ _ hk, exec_ldVxK_of_key _ _ (hkey ▸ hk)]
    exact .next (r.setReg x _)
  | none =>
    rw [exec_ldVxK_of_none _ _ hk, exec_ldVxK_of_none _ _ (hkey ▸ hk), r.pc]
    exact .next (r.setPc _)

/-! ### The handlers and the cycle -/

/-- A handler that does not read the hidden piece answers alike: its operands are the same and its updates keep the
relation. -/
theorem exec_alike {i : Instr} (hi : ¬ reads i h) : AnswersAlike h (exec i s) (exec i s') := by
  cases i with
  | cls => exact .next { r with fb := rfl }
  | ret => exact r.ret_alike
  | jpAddr nnn => exact .next (r.setPc _)
  | callAddr nnn => exact r.call_alike _
  | jpV0 nnn => rw [exec_jpV0, exec_jpV0, r.reg]; exact .next (r.setPc _)
  | seKk x kk => rw [exec_seKk, exec_seKk, r.reg]; exact .next (r.skipIf _)
  | sneKk x kk => rw [exec_sneKk, exec_sneKk, r.reg]; exact .next (r.skipIf _)
  | seReg x y => rw [exec_seReg, exec_seReg, r.reg, r.reg]; exact .next (r.skipIf _)
  | sneReg x y => rw [exec_sneReg, exec_sneReg, r.reg, r.reg]; exact .next (r.skipIf _)
  | ldKk x kk => exact .next (r.setReg _ _)
  | addKk x kk => rw [exec_addKk, exec_addKk, r.reg]; exact .next (r.setReg _ _)
  | ldReg x y => rw [exec_ldReg, exec_ldReg, r.reg]; exact .next (r.setReg _ _)
  | orReg x y => rw [exec_orReg, exec_orReg, r.reg, r.reg]; exact .next (r.setReg _ _)
  | andReg x y => rw [exec_andReg, exec_andReg, r.reg, r.reg]; exact .next (r.setReg _ _)
  | xorReg x y => rw [exec_xorReg, exec_xorReg, r.reg, r.reg]; exact .next (r.setReg _ _)
  | addReg x y => rw [exec_addReg, exec_addReg, r.reg, r.reg]; exact .next (r.setRegFlag _ _ _)
  | subReg x y => rw [exec_subReg, exec_subReg, r.reg, r.reg]; exact .next (r.setRegFlag _ _ _)
  | subnReg x y => rw [exec_subnReg, exec_subnReg, r.reg, r.reg]; exact .next (r.setRegFlag _ _ _)
  | shr x y => rw [exec_shr, exec_shr, r.reg]; exact .next (r.setRegFlag _ _ _)
  | shl x y => rw [exec_shl, exec_shl, r.reg]; exact .next (r.setRegFlag _ _ _)
  | rnd x kk =>
    have hd : h ≠ .draw := by rintro rfl; exact hi ⟨x, kk, rfl⟩
    have hdraw : s'.draw = s.draw := by rw [State.draw, State.draw, r.rndIn hd, r.draws]
    rw [exec_rnd, exec_rnd, hdraw, r.draws]
    exact .next { r.setReg x _ with draws := rfl }
  | skp x =>
    have hk : h ≠ .key := by rintro rfl; exact hi ⟨x, .inl rfl⟩
    rw [exec_skp, exec_skp, r.reg]
    exact r.withKey_alike _ (k := fun c s => s.skipIf c) (r.key hk) r.skipIf
  | sknp x =>
    have hk : h ≠ .key := by rintro rfl; exact hi ⟨x, .inr (.inl rfl)⟩
    rw [exec_sknp, exec_sknp, r.reg]
    exact r.withKey_alike _ (k := fun c s => s.skipIf (!c)) (r.key hk) fun c => r.skipIf (!c)
  | ldVxK x =>
    have hk : h ≠ .key := by rintro rfl; exact hi ⟨x, .inr (.inr rfl)⟩
    exact r.ldVxK_alike x (r.key hk)
  | ldI nnn => exact .next (r.setI _)
  | addI x => rw [exec_addI, exec_addI, r.reg, r.i]; exact .next (r.setI _)
  | ldF x => rw [exec_ldF, exec_ldF, r.reg]; exact .next (r.setI _)
  | ldVxDt x => rw [exec_ldVxDt, exec_ldVxDt, r.dt]; exact .next (r.setReg _ _)
  | ldDtVx x => rw [exec_ldDtVx, exec_ldDtVx, r.reg]; exact .next { r with dt := rfl }
  | ldStVx x => rw [exec_ldStVx, exec_ldStVx, r.reg]; exact .next { r with st := fun _ => rfl }
  | ldB x =>
    rw [exec_ldB, exec_ldB, r.reg, r.base, r.mem]
    exact r.withWindow_alike _ _ { r with mem := rfl }
  | ldMemVx x =>
    rw [exec_ldMemVx, exec_ldMemVx, r.regsUpTo, r.base, r.mem]
    exact r.withWindow_alike _ _ { r with mem := rfl }
  | ldVxMem x =>
    rw [exec_ldVxMem, exec_ldVxMem, r.v, r.base, r.mem]
    exact r.withWindow_alike _ _ { r with v := rfl, mem := rfl }
  | drw x y n =>
    rw [exec_drw, exec_drw, drawWith, drawWith, r.reg, r.reg, r.base, r.mem, r.fb]
    refine r.withWindow_alike _ _ (setReg ?_ _ _)
    exact { r with mem := rfl, fb := rfl }

theorem runWord_alike {w : Word} (hw : ∀ i, decode w = .ok i → ¬ reads i h) :
    AnswersAlike h (runWord w s) (runWord w s') := by
  cases hd : decode w with
  | ok i => rw [runWord_of_ok hd, runWord_of_ok hd]; exact r.exec_alike (hw i hd)
  | error e => rw [runWord_of_error hd, runWord_of_error hd]; exact .next r

omit r in
theorem finish_alike {a a' : Result} (al : AnswersAlike h a a') : AnswersAlike h (finish a) (finish a') := by
  cases al with
  | next r => exact .next r.endCycle_sameBut
  | fault e => exact .fault e
  | refused x => exact .refused x

/-- A cycle whose instruction does not read the hidden piece answers alike. -/
theorem step_alike (hw : ∀ w i, fetch s = .ok w → decode w = .ok i → ¬ reads i h) :
    AnswersAlike h (step s) (step s') := by
  rw [step_eq, step_eq, r.fetch_eq]
  cases hf : fetch s with
  | error e => exact .fault e
  | ok w => exact finish_alike (r.advance.runWord_alike (hw w · hf))

end SameBut

theorem sameBut_stale_iff {s s' : State} : SameBut .stale s s' ↔ SameButStaleEntries s s' := by
  constructor
  · intro r
    have e := r.eq_update
    rw [r.st nofun, r.key nofun, r.rndIn nofun] at e
    exact ⟨e, fun j hj => r.stack j fun _ => hj⟩
  · rintro ⟨e, hj⟩
    rw [e]
    exact { SameBut.refl .stale s with stack := fun j hlive => hj j (hlive rfl) }

/-- Settles O47: the relation is `SameBut .stale`, and no instruction reads a stale entry. -/
theorem staleStackEntriesAreUnobservable : Obligations.StaleStackEntriesAreUnobservable := by
  intro s s' hrel
  have al := (sameBut_stale_iff.2 hrel).step_alike fun _ _ _ _ => not_false
  refine ⟨fun t ht => ?_, fun e => al.of_fault⟩
  obtain ⟨t', ht', r⟩ := al.of_next ht
  exact ⟨t', ht', sameBut_stale_iff.1 r⟩

/-- Settles O46: the two states are related by `SameBut .st`, and no instruction reads ST. -/
theorem soundTimerIsNeverRead : Obligations.SoundTimerIsNeverRead := by
  intro s b
  have al := (SameBut.setSt b s).step_alike fun _ _ _ _ => not_false
  refine ⟨fun t ht => ?_, fun e => al.of_fault⟩
  obtain ⟨t', ht', r⟩ := al.of_next ht
  have e := r.eq_update
  rw [r.stack_eq nofun, r.key nofun, r.rndIn nofun] at e
  exact ⟨t'.st, ht'.trans (congrArg _ e)⟩

/-- Settles O45: the two cycles end in states that differ in the keypad alone, and neither has changed its keypad. -/
theorem keypadIsReadOnlyByKeyInstructions : Obligations.KeypadIsReadOnlyByKeyInstructions := by
  intro s w k hf hw
  have hread : ∀ w' i, fetch s = .ok w' → decode w' = .ok i → ¬ reads i .key := by
    intro w' i hf' hi
    obtain rfl : w = w' := Except.ok.inj (hf.symm.trans hf')
    rintro ⟨x, hx⟩
    obtain ⟨hskp, hsknp, hldVxK⟩ := hw x
    rcases hx with rfl | rfl | rfl
    · exact hskp hi
    · exact hsknp hi
    · exact hldVxK hi
  have hkey : SameBut .key s (setKeysPort k s) := SameBut.setKey _ s
  have al := hkey.step_alike hread
  refine ⟨fun t ht => ?_, fun e => al.of_fault⟩
  obtain ⟨t', ht', r⟩ := al.of_next ht
  have e := r.eq_update
  rw [r.stack_eq nofun, r.st nofun, r.rndIn nofun, step_key ht'] at e
  rw [ht', e]
  rfl

/-! ## The ports -/

/-- Settles O41: the keypad is the port's only part, and no instruction has it among its writes (`step_key`). -/
theorem setKeysWritesOnlyTheKeypad : Obligations.SetKeysWritesOnlyTheKeypad := by
  intro k s
  exact ⟨setKeysPort k s, rfl, fun j => by simp, fun p hp => (setKeysPort_same hp).keeps, fun u hu => step_key hu⟩

theorem linearFb_eq_flatten (fb : Framebuffer) : linearFb fb = fb.flatten.toList := by
  simp [linearFb, Vector.flatten, Vector.toList, Function.comp_def]

theorem getElem?_linearFb (fb : Framebuffer) (x : Fin 64) (y : Fin 32) :
    (linearFb fb)[y.val * 64 + x.val]? = some (pixel fb x y) := by
  have hlt : y.val * 64 + x.val < 32 * 64 := by omega
  have hrow : (y.val * 64 + x.val) / 64 = y.val := by omega
  have hcol : (y.val * 64 + x.val) % 64 = x.val := by omega
  have hget := Vector.getElem_flatten (xss := fb) hlt
  simp only [hrow, hcol] at hget
  simp [linearFb_eq_flatten, hlt, hget, pixel]

/-- Settles O42: the entries are the flattened rows. -/
theorem readFbIsRowMajor : Obligations.ReadFbIsRowMajor :=
  fun s => ⟨linearFb s.fb, rfl, by simp [linearFb_eq_flatten], getElem?_linearFb s.fb⟩

theorem resetByte_outside_font {a : Nat} (h : a < 0x050 ∨ 0x0A0 ≤ a) : Memory.resetByte a = 0 :=
  if_neg (by simp only [Config.fontBase, Config.fontSize]; omega)

/-- Settles O43: either hypothesis makes the state one that `reset` answers, and its fields are the reset state's. -/
theorem resetLeavesTheResetState : Obligations.ResetLeavesTheResetState := by
  intro s t ht
  obtain ⟨before, rfl⟩ : ∃ before, t = resetPort before := by
    rcases ht with rfl | h
    · exact ⟨State.reset, rfl⟩
    · exact ⟨s, (Prod.mk.inj h).1.symm⟩
  refine ⟨rfl, fun r => ?_, rfl, rfl, fun j => ?_, rfl, rfl, rfl, pixel_clearedFb, fun k => ?_,
    fun a ha => resetByte_outside_font ha, rfl⟩
  · simp [State.reg_def, State.reset]
  · simp [State.reset]
  · simp [State.reset]

end Sys2Proof.Machine
end

section
/-! The family of spec/20_memory.md: bytes that a cycle stores and the next one fetches (R76, R88), the `load` port
(R91, R92), and the invariant along a host session (R84). -/

namespace Sys2Proof.Machine

/-! ## Stored registers and the next fetch -/

@[simp] theorem getElem_regsUpTo {s : State} {x : Reg} {k : Nat} (h : k < (s.regsUpTo x).length) :
    (s.regsUpTo x)[k] = s.reg ⟨k, by rw [length_regsUpTo] at h; omega⟩ := by
  simp [State.regsUpTo, State.reg_def]

/-- FX55 completes only with its whole window inside memory, and its answer differs in memory alone. -/
theorem exec_ldMemVx_eq_next {x : Reg} {s t : State} :
    exec (.ldMemVx x) s = .next t ↔
      s.i.toNat + x.val + 1 ≤ 4096 ∧ { s with mem := s.mem.writeBytes s.i.toNat (s.regsUpTo x) } = t := by
  rw [exec_ldMemVx, withWindow_eq_next, windowInside_iff]
  exact and_congr_left' (or_iff_right (Nat.succ_ne_zero x.val))

/-- Every register that FX55 stores reads back from its place in the window. -/
theorem exec_ldMemVx_read {x r : Reg} {s t : State} (hm : s.mem.wf = true) (h : exec (.ldMemVx x) s = .next t)
    (hr : r ≤ x) : t.mem.read (s.i.toNat + r.val) = s.reg r := by
  obtain ⟨hin, rfl⟩ := exec_ldMemVx_eq_next.1 h
  have hlt : r.val < (s.regsUpTo x).length := by rw [length_regsUpTo]; exact Nat.lt_succ_of_le hr
  exact (Memory.read_writeBytes_inside _ hm hlt (by rwa [length_regsUpTo])).trans (getElem_regsUpTo hlt)

/-- Settles O34: the handler moves no PC, so the next fetch reads at `s.pc + 2`, which is where FX55 put Vr and the
register above it. -/
theorem storedBytesAreFetchedByTheNextCycle : Obligations.StoredBytesAreFetchedByTheNextCycle := by
  intro s t w x k r r' hm hf hd hs hk hr hr' hle
  obtain ⟨u, rfl, ⟨e, he, -⟩ | ⟨i, hi, hx⟩⟩ := step_next_cases hf hs
  · cases hd.symm.trans he
  · obtain rfl : Instr.ldMemVx x = i := by injection hd.symm.trans hi
    have hfetched : s.pc.toNat + 1 < 4096 := (fetch_eq_ok.1 hf).1
    have hlow : r ≤ x := le_trans (Fin.le_def.2 (by omega)) hle
    have hhigh : r'.val ≤ x.val := hle
    have hwindow : s.i.toNat + x.val + 1 ≤ 4096 := (exec_ldMemVx_eq_next.1 hx).1
    have hu : u.pc = s.pc + 2 := exec_same (p := .pc) hx (by simp [writes])
    have hpc : u.pc.toNat = s.i.toNat + r.val := by bv_omega
    have hnext : u.pc.toNat + 1 = s.i.toNat + r'.val := by omega
    have hread : u.mem.read (s.i.toNat + r.val) = s.reg r := exec_ldMemVx_read (s := s.advance) hm hx hlow
    have hread' : u.mem.read (s.i.toNat + r'.val) = s.reg r' := exec_ldMemVx_read (s := s.advance) hm hx hle
    refine fetch_eq_ok.2 ⟨?_, ?_⟩
    · rw [State.endCycle_pc]; omega
    · rw [State.endCycle_pc, State.endCycle_mem, hnext, hpc, hread, hread']

/-! ## The load port -/

theorem wellFormedImage_iff (img : List Byte) : wellFormedImage img = true ↔ img.length ≤ 3584 := decide_eq_true_iff

theorem loadPort_eq_next {img : List Byte} {s t : State} :
    loadPort img s = .next t ↔ img.length ≤ 3584 ∧ { s with mem := s.mem.writeBytes 0x200 img } = t := by
  rw [← wellFormedImage_iff, loadPort]
  split
  · simp_all [Config.progStart]
  · simp_all

theorem loadPort_eq_fault {img : List Byte} {s : State} {e : Fault} :
    loadPort img s = .fault e ↔ 3584 < img.length ∧ .loadError img.length = e := by
  rw [← Nat.not_le, ← wellFormedImage_iff, loadPort]
  split <;> simp_all

theorem loadPort_same {img : List Byte} {s t : State} {p : Part} (h : loadPort img s = .next t) (hp : p ∉ [.mem]) :
    Same p s t := by
  obtain ⟨-, rfl⟩ := loadPort_eq_next.1 h
  cases p <;> simp [Same] at hp ⊢

/-- Settles O40: the longest image, 3584 bytes from 0x200, ends exactly at the end of memory. -/
theorem loadCopiesTheImageOrRefusesIt : Obligations.LoadCopiesTheImageOrRefusesIt := by
  intro img s hm
  refine ⟨fun hlen => ?_, fun hlen => ?_⟩
  · have hload := (loadPort_eq_next (s := s)).2 ⟨hlen, rfl⟩
    have hin : 0x200 + img.length ≤ Config.memSize := by rw [Config.memSize]; omega
    exact ⟨_, congrArg (settle s) hload, fun k hk => Memory.read_writeBytes_inside img hm hk hin,
      fun b hb => Memory.read_writeBytes_outside img hb, fun p hp => (loadPort_same hload hp).keeps⟩
  · exact congrArg (settle s) (loadPort_eq_fault.2 ⟨hlen, rfl⟩)

/-! ## The invariant along a session -/

theorem inv_reset : Inv State.reset := ⟨rfl, by decide, fun j => by simp [State.reset]⟩

theorem inv_resetPort (s : State) : Inv (resetPort s) := ⟨inv_reset.memory, inv_reset.pc, inv_reset.stack⟩

theorem loadPort_keeps_inv {img : List Byte} {s t : State} (hs : Inv s) (h : loadPort img s = .next t) : Inv t := by
  obtain ⟨hlen, rfl⟩ := loadPort_eq_next.1 h
  exact ⟨Memory.wf_writeBytes 0x200 img hs.memory (by rw [Config.memSize]; omega), hs.pc, hs.stack⟩

theorem cyclePort_keeps_inv {rnd : Byte} {s t : State} (hs : Inv s) (h : cyclePort rnd s = .next t) : Inv t :=
  stepKeepsTheInvariant { s with rndIn := some rnd } t ⟨hs.memory, hs.pc, hs.stack⟩ h

/-- A transaction settles in the state it found or in the one it answered. -/
theorem settle_keeps {P : State → Prop} {s : State} {r : Result} (hs : P s) (hr : ∀ t, r = .next t → P t) :
    P (settle s r).1 := by
  cases r with
  | next t => exact hr t rfl
  | fault e => exact hs
  | refused x => exact hs

theorem transact_keeps_inv (tr : Transaction) {s : State} (hs : Inv s) : Inv (transact tr s).1 := by
  cases tr with
  | reset => exact inv_resetPort s
  | load img => exact settle_keeps hs fun _ => loadPort_keeps_inv hs
  | setKeys k => exact ⟨hs.memory, hs.pc, hs.stack⟩
  | cycle rnd => exact settle_keeps hs fun _ => cyclePort_keeps_inv hs
  | readFb => exact hs

@[simp] theorem session_cons_state (tr : Transaction) (rest : List Transaction) (s : State) :
    (session (tr :: rest) s).1 = (session rest (transact tr s).1).1 := rfl

/-- A predicate that every transaction keeps holds after every session, whatever the order (spec/20_memory.md R84). -/
theorem session_keeps {P : State → Prop} (h : ∀ (tr : Transaction) (s : State), P s → P (transact tr s).1)
    (ts : List Transaction) {s : State} (hs : P s) : P (session ts s).1 := by
  induction ts generalizing s with
  | nil => exact hs
  | cons tr rest ih => rw [session_cons_state]; exact ih (h tr s hs)

/-- Settles O50, by induction on the session (`session_keeps`) from what each transaction keeps. -/
theorem hostSessionsKeepTheInvariant : Obligations.HostSessionsKeepTheInvariant :=
  fun ts _ hs => session_keeps (fun tr _ => transact_keeps_inv tr) ts hs

end Sys2Proof.Machine
end

section
/-! The family of spec/30_encoding.md: the round trip between instructions and canonical words (R111, R113, R114), and
what a cycle does with an unmapped word (R108). -/

namespace Sys2Proof

/-! ## A word from its selector and fields

A known value of a field may stand in for it: the fixed digits of `encode`'s spellings are such values. -/

theorem encodeNnn_of_fieldOp {w : Word} {op : BitVec 4} (hop : fieldOp w = op) : encodeNnn op (fieldNnn w) = w := by
  rw [← hop, encodeNnn_fields]

theorem encodeXkk_of_fieldOp {w : Word} {op : BitVec 4} {kk : Byte} (hop : fieldOp w = op) (hkk : fieldKk w = kk) :
    encodeXkk op (fieldX w) kk = w := by
  rw [← hop, ← hkk, encodeXkk_fields]

theorem encodeXyn_of_fieldOp {w : Word} {op n : BitVec 4} (hop : fieldOp w = op) (hn : fieldN w = n) :
    encodeXyn op (fieldX w) (fieldY w) n = w := by
  rw [← hop, ← hn, encodeXyn_fields]

/-- The row count of DXYN is the word's low nibble. -/
theorem nibble_fieldCount (w : Word) : nibble (fieldCount w) = fieldN w := rfl

/-! ## Decoding what was encoded -/

/-- Families 8, E and F take their second-level selector from the encoded word; every other instruction is found by its
primary selector. -/
theorem decode_encode (i : Instr) : decode (encode i) = .ok i := by
  cases i with
  | cls | ret => rfl
  | ldReg | orReg | andReg | xorReg | addReg | subReg | shr | subnReg | shl => simp [encode, decode, decode8]
  | skp | sknp => simp [encode, decode, decodeE, fieldN_encodeXkk]
  | ldVxDt | ldVxK | ldDtVx | ldStVx | addI | ldF | ldB | ldMemVx | ldVxMem => simp [encode, decode, decodeF]
  | _ => simp [encode, decode]

/-! ## Encoding what was decoded

The digits that the dispatch does not examine come from the word being canonical (R111). -/

/-- Canonical words clause by clause: only families 0, 5, 9 and E have digits that the dispatch does not examine. -/
theorem wellFormedWord_iff (w : Word) : wellFormedWord w = true ↔
    (fieldOp w = 0x0 → (fieldN w = 0x0 → w = 0x00E0) ∧ (fieldN w = 0xE → w = 0x00EE)) ∧
    (fieldOp w = 0x5 ∨ fieldOp w = 0x9 → fieldN w = 0x0) ∧
    (fieldOp w = 0xE → (fieldN w = 0xE → fieldKk w = 0x9E) ∧ (fieldN w = 0x1 → fieldKk w = 0xA1)) := by
  unfold wellFormedWord
  split_ifs <;> simp_all

open Laws.Canonical in
/-- The encoder answers canonical words only. -/
theorem wellFormedWord_encode : (i : Instr) → wellFormedWord (encode i) = true
  | .cls => cls | .ret => ret | .jpAddr nnn => jpAddr nnn | .callAddr nnn => callAddr nnn
  | .seKk x kk => seKk x kk | .sneKk x kk => sneKk x kk | .seReg x y => seReg x y | .sneReg x y => sneReg x y
  | .ldKk x kk => ldKk x kk | .addKk x kk => addKk x kk | .ldReg x y => ldReg x y | .orReg x y => orReg x y
  | .andReg x y => andReg x y | .xorReg x y => xorReg x y | .addReg x y => addReg x y | .subReg x y => subReg x y
  | .shr x y => shr x y | .subnReg x y => subnReg x y | .shl x y => shl x y | .ldI nnn => ldI nnn
  | .jpV0 nnn => jpV0 nnn | .rnd x kk => rnd x kk | .drw x y n => drw x y n | .skp x => skp x | .sknp x => sknp x
  | .ldVxDt x => ldVxDt x | .ldVxK x => ldVxK x | .ldDtVx x => ldDtVx x | .ldStVx x => ldStVx x | .addI x => addI x
  | .ldF x => ldF x | .ldB x => ldB x | .ldMemVx x => ldMemVx x | .ldVxMem x => ldVxMem x

theorem encode_of_decode0 {w : Word} {i : Instr} (hw : wellFormedWord w = true) (hop : fieldOp w = 0x0)
    (h : decode0 w = .ok i) : encode i = w := by
  obtain ⟨h0, -, -⟩ := (wellFormedWord_iff w).1 hw
  obtain ⟨hcls, hret⟩ := h0 hop
  obtain ⟨hn, rfl⟩ | ⟨hn, rfl⟩ := decode0_eq_ok.1 h
  · exact (hcls hn).symm
  · exact (hret hn).symm

theorem encode_of_decode8 {w : Word} {i : Instr} (hop : fieldOp w = 0x8) (h : decode8 w = .ok i) : encode i = w := by
  rcases decode8_eq_ok.1 h with ⟨hn, rfl⟩ | ⟨hn, rfl⟩ | ⟨hn, rfl⟩ | ⟨hn, rfl⟩ | ⟨hn, rfl⟩ | ⟨hn, rfl⟩ | ⟨hn, rfl⟩ |
    ⟨hn, rfl⟩ | ⟨hn, rfl⟩ <;> exact encodeXyn_of_fieldOp hop hn

theorem encode_of_decodeE {w : Word} {i : Instr} (hw : wellFormedWord w = true) (hop : fieldOp w = 0xE)
    (h : decodeE w = .ok i) : encode i = w := by
  obtain ⟨-, -, hE⟩ := (wellFormedWord_iff w).1 hw
  obtain ⟨hskp, hsknp⟩ := hE hop
  obtain ⟨hn, rfl⟩ | ⟨hn, rfl⟩ := decodeE_eq_ok.1 h
  · exact encodeXkk_of_fieldOp hop (hskp hn)
  · exact encodeXkk_of_fieldOp hop (hsknp hn)

theorem encode_of_decodeF {w : Word} {i : Instr} (hop : fieldOp w = 0xF) (h : decodeF w = .ok i) : encode i = w := by
  rcases decodeF_eq_ok.1 h with ⟨hk, rfl⟩ | ⟨hk, rfl⟩ | ⟨hk, rfl⟩ | ⟨hk, rfl⟩ | ⟨hk, rfl⟩ | ⟨hk, rfl⟩ | ⟨hk, rfl⟩ |
    ⟨hk, rfl⟩ | ⟨hk, rfl⟩ <;> exact encodeXkk_of_fieldOp hop hk

/-- A canonical word is the encoding of what it decodes to, family by family in the order of `decode_eq_ok`. -/
theorem encode_of_decode {w : Word} {i : Instr} (hw : wellFormedWord w = true) (h : decode w = .ok i) :
    encode i = w := by
  obtain ⟨-, hn, -⟩ := (wellFormedWord_iff w).1 hw
  rcases decode_eq_ok.1 h with ⟨hop, h0⟩ | ⟨hop, rfl⟩ | ⟨hop, rfl⟩ | ⟨hop, rfl⟩ | ⟨hop, rfl⟩ | ⟨hop, rfl⟩ |
    ⟨hop, rfl⟩ | ⟨hop, rfl⟩ | ⟨hop, h8⟩ | ⟨hop, rfl⟩ | ⟨hop, rfl⟩ | ⟨hop, rfl⟩ | ⟨hop, rfl⟩ | ⟨hop, rfl⟩ |
    ⟨hop, hE⟩ | ⟨hop, hF⟩
  · exact encode_of_decode0 hw hop h0
  · exact encodeNnn_of_fieldOp hop
  · exact encodeNnn_of_fieldOp hop
  · exact encodeXkk_of_fieldOp hop rfl
  · exact encodeXkk_of_fieldOp hop rfl
  · exact encodeXyn_of_fieldOp hop (hn (.inl hop))
  · exact encodeXkk_of_fieldOp hop rfl
  · exact encodeXkk_of_fieldOp hop rfl
  · exact encode_of_decode8 hop h8
  · exact encodeXyn_of_fieldOp hop (hn (.inr hop))
  · exact encodeNnn_of_fieldOp hop
  · exact encodeNnn_of_fieldOp hop
  · exact encodeXkk_of_fieldOp hop rfl
  · exact encodeXyn_of_fieldOp hop (nibble_fieldCount w).symm
  · exact encode_of_decodeE hw hop hE
  · exact encode_of_decodeF hop hF

/-- The fetch puts the two bytes of a word together again, the high byte from the lower address
(spec/20_memory.md R75). -/
theorem fetch_of_bytes {s : Machine.State} {w : Word} (hpc : s.pc.toNat + 1 < 4096)
    (hhi : s.mem.read s.pc.toNat = highByte w) (hlo : s.mem.read (s.pc.toNat + 1) = lowByte w) :
    Machine.fetch s = .ok w :=
  Machine.fetch_eq_ok.2 ⟨hpc, by rw [hhi, hlo, wordOfBytes_highByte_lowByte]⟩

/-- Settles O1: decoding undoes encoding (`decode_encode`), encoding undoes decoding on the canonical words
(`encode_of_decode`), and every encoding is canonical (`wellFormedWord_encode`). -/
theorem decodeEncodeRoundTrip : Obligations.DecodeEncodeRoundTrip := by
  refine ⟨decode_encode, fun w i h => ⟨?_, fun hw => encode_of_decode hw h⟩, fun i s => fetch_of_bytes⟩
  rintro rfl
  exact wellFormedWord_encode i

end Sys2Proof

namespace Sys2Proof.Machine

/-! ## A cycle with an unmapped word -/

theorem stepWith_of_fetch {s : State} {w : Word} (policy : Config.UnknownOpcodePolicy) (hf : fetch s = .ok w) :
    stepWith policy s = finish (runWordWith policy w s.advance) := by
  rw [stepWith, hf]

theorem runWordWith_of_error {w : Word} {e : Unmapped} (policy : Config.UnknownOpcodePolicy) (h : decode w = .error e)
    (s : State) : runWordWith policy w s = unmappedWith policy w s := by
  rw [runWordWith, h]

/-- Under `NOP` the next state is the one of a handler that changes nothing. -/
theorem step_of_unmapped {s : State} {w : Word} {e : Unmapped} (hf : fetch s = .ok w) (hd : decode w = .error e) :
    step s = .next (endCycle s.advance) :=
  step_eq_next.2 ⟨w, s.advance, hf, runWord_of_error hd _, rfl⟩

theorem stepWith_error_of_unmapped {s : State} {w : Word} {e : Unmapped} (hf : fetch s = .ok w)
    (hd : decode w = .error e) : stepWith .error s = .fault (.unknownOpcode s.pc w) := by
  rw [stepWith_of_fetch _ hf, runWordWith_of_error _ hd, finish_eq_fault, unmappedWith, pc0_advance, raise]

/-- Settles O7: the advance and the tick are all that the cycle does under `NOP`, and each leaves the other parts. -/
theorem unmappedWordOnlyAdvancesAndTicks : Obligations.UnmappedWordOnlyAdvancesAndTicks := by
  intro s w e hf hd
  refine ⟨⟨_, step_of_unmapped hf hd, rfl, toNat_tickTimer s.dt, toNat_tickTimer s.st, fun p hp => ?_⟩, rfl,
    stepWith_error_of_unmapped hf hd⟩
  obtain ⟨hpc, hend⟩ : p ≠ .pc ∧ p ∉ [.dt, .st, .draw] := by simpa using hp
  exact ((advance_same hpc).trans (endCycle_same hend)).keeps

end Sys2Proof.Machine
end

section
/-! The family of spec/40_cycle.md: the fetch (R131), the cycle around the handler (R130, R132, R133), the timer tick
(R135, R136), failing cycles (R137), and the draw (R44). -/

namespace Sys2Proof.Machine

/-! ## The fetch and the cycle around the handler -/

/-- A cycle with a mapped word is its handler from the advanced PC, and then the end of the cycle. -/
theorem step_of_decode {s : State} {w : Word} {i : Instr} (hf : fetch s = .ok w) (hd : decode w = .ok i) :
    step s = finish (exec i s.advance) := by
  rw [step_eq, hf, ← runWord_of_ok hd]

theorem decodeBytes_pair_eq_ok {hi lo : Byte} {i : Instr} (h : decodeBytes [hi, lo] = .ok (i, [])) :
    decode (wordOfBytes hi lo) = .ok i := by
  cases hd : decode (wordOfBytes hi lo) with
  | ok j => simp_all [decodeBytes]
  | error e => simp [decodeBytes, hd] at h

/-- Settles O5: the fetched word is the one the two bytes decode as, and the statement's update is `endCycle`. -/
theorem stepRunsTheDecodedInstruction : Obligations.StepRunsTheDecodedInstruction := by
  intro s i hpc hd
  rw [step_of_decode (fetch_eq_ok.2 ⟨hpc, rfl⟩) (decodeBytes_pair_eq_ok hd), State.advance]
  cases exec i { s with pc := s.pc + 2 } <;> rfl

/-- The draw is no part of the fetch. -/
theorem fetch_setRndIn (s : State) (d : Option Byte) : fetch { s with rndIn := d } = fetch s := rfl

/-- An error reported by the `cycle` transaction leaves the state it found (R137). -/
theorem transact_cycle_of_fault {s : State} {rnd : Byte} {e : Fault} (h : cyclePort rnd s = .fault e) :
    transact (.cycle rnd) s = (s, .err e.code e) := by
  rw [transact, h, settle]

/-- A failing fetch fails the step and the transaction alike, with the error code of MemoryBoundsError. -/
theorem cycle_of_fetch_outside {s : State} (rnd : Byte) (hpc : 0xFFF ≤ s.pc.toNat) :
    step s = .fault (.memoryBounds s.pc .mem (max s.pc.toNat 4096)) ∧
      transact (.cycle rnd) s = (s, .err 4 (.memoryBounds s.pc .mem (max s.pc.toNat 4096))) := by
  have hf : fetch s = .error (.memoryBounds s.pc .mem (max s.pc.toNat 4096)) := fetch_eq_error.2 ⟨by omega, rfl⟩
  exact ⟨step_eq_fault.2 (.inl hf), transact_cycle_of_fault (step_eq_fault.2 (.inl ((fetch_setRndIn s _).trans hf)))⟩

/-- Settles O6: the address reported is the larger of PC and 4096 (`cycle_of_fetch_outside`). -/
theorem fetchOutsideMemoryFaults : Obligations.FetchOutsideMemoryFaults := by
  intro s rnd
  refine ⟨fun h => ?_, fun h => ?_, fun h => ?_⟩
  · exact ⟨_, fetch_eq_ok.2 ⟨by omega, rfl⟩, toNat_wordOfBytes ..⟩
  · have hmax : max s.pc.toNat 4096 = 0x1000 := by omega
    exact hmax ▸ cycle_of_fetch_outside rnd h.ge
  · have hmax : max s.pc.toNat 4096 = s.pc.toNat := Nat.max_eq_left h
    exact hmax ▸ cycle_of_fetch_outside rnd (by omega)

/-! ## Every word has a meaning -/

theorem exec_ne_refused (i : Instr) (s : State) (x : Refusal) : exec i s ≠ .refused x := by
  cases i with
  | ret => exact ret_ne_refused s x
  | callAddr nnn => exact call_ne_refused _ s x
  | skp | sknp => simp only [exec_skp, exec_sknp]; exact withKey_ne_refused _ s _ x
  | ldB | ldMemVx | ldVxMem | drw => exact withWindow_ne_refused _ _ s _ x
  | ldVxK r =>
    cases hk : firstKey s.key with
    | none => rw [exec_ldVxK_of_none _ _ hk]; nofun
    | some k => rw [exec_ldVxK_of_key _ _ hk]; nofun
  | _ => nofun

theorem step_ne_refused (s : State) (x : Refusal) : step s ≠ .refused x := by
  intro h
  obtain ⟨w, -, hr⟩ := step_eq_refused.1 h
  cases hd : decode w with
  | ok i => exact exec_ne_refused i _ x (runWord_of_ok hd _ ▸ hr)
  | error e => rw [runWord_of_error hd] at hr; cases hr

theorem settle_noMeaning {s : State} {r : Result} {x : Refusal} (h : (settle s r).2 = .noMeaning x) :
    r = .refused x := by
  cases r with
  | next t => cases h
  | fault e => cases h
  | refused y => obtain rfl := Reply.noMeaning.inj h; rfl

/-- Settles O11: no handler refuses, and an unmapped word does nothing. -/
theorem noCycleIsRefused : Obligations.NoCycleIsRefused :=
  fun s x _ => ⟨step_ne_refused s x, fun h => step_ne_refused _ x (settle_noMeaning h)⟩

/-! ## Timers -/

/-- Where the handler's answer is known, a cycle that returns `ok` ends on it. -/
theorem step_of_decode_next {s t u : State} {w : Word} {i : Instr} (hf : fetch s = .ok w) (hd : decode w = .ok i)
    (hs : step s = .next t) (hx : exec i s.advance = .next u) : endCycle u = t := by
  rw [step_of_decode hf hd, hx] at hs
  exact Host.Outcome.next.inj hs

/-- Before the end of a cycle every part but PC is as the cycle found it, unless the fetched instruction writes it. -/
theorem step_same_before_end {s t : State} {w : Word} {p : Part} (hf : fetch s = .ok w) (hs : step s = .next t)
    (hp : p ≠ .pc) (hw : ∀ i, decode w = .ok i → p ∉ writes i) : ∃ u, Same p s u ∧ endCycle u = t := by
  obtain ⟨u, hend, ⟨e, -, rfl⟩ | ⟨i, hi, hx⟩⟩ := step_next_cases hf hs
  · exact ⟨_, advance_same hp, hend⟩
  · exact ⟨u, (advance_same hp).trans (exec_same hx (hw i hi)), hend⟩

theorem dt_mem_writes {i : Instr} (h : .dt ∈ writes i) : ∃ x, i = .ldDtVx x := by
  cases i <;> simp [writes] at h ⊢

theorem st_mem_writes {i : Instr} (h : .st ∈ writes i) : ∃ x, i = .ldStVx x := by
  cases i <;> simp [writes] at h ⊢

theorem draw_mem_writes {i : Instr} (h : .draw ∈ writes i) : ∃ x kk, i = .rnd x kk := by
  cases i <;> simp [writes] at h ⊢

theorem step_dt {s t : State} {w : Word} (hf : fetch s = .ok w) (hs : step s = .next t)
    (hw : ∀ x, decode w ≠ .ok (.ldDtVx x)) : t.dt.toNat = s.dt.toNat - 1 := by
  obtain ⟨u, hu, rfl⟩ := step_same_before_end (p := .dt) hf hs nofun fun i hi hm => by
    obtain ⟨x, rfl⟩ := dt_mem_writes hm
    exact hw x hi
  have hdt : u.dt = s.dt := hu
  rw [State.endCycle_dt, hdt, toNat_tickTimer]

theorem step_st {s t : State} {w : Word} (hf : fetch s = .ok w) (hs : step s = .next t)
    (hw : ∀ x, decode w ≠ .ok (.ldStVx x)) : t.st.toNat = s.st.toNat - 1 := by
  obtain ⟨u, hu, rfl⟩ := step_same_before_end (p := .st) hf hs nofun fun i hi hm => by
    obtain ⟨x, rfl⟩ := st_mem_writes hm
    exact hw x hi
  have hst : u.st = s.st := hu
  rw [State.endCycle_st, hst, toNat_tickTimer]

/-- Settles O8: the tick acts on what the handler left, which is the old timer unless the word is its writer. -/
theorem timersTickInEverySuccessfulCycle : Obligations.TimersTickInEverySuccessfulCycle := by
  intro s t w hf hs
  refine ⟨fun x hd => ?_, step_dt hf hs, fun x hd => ?_, step_st hf hs, fun x hd => ?_⟩
  · exact step_of_decode_next hf hd hs (exec_ldDtVx ..) ▸ toNat_tickTimer (s.reg x)
  · exact step_of_decode_next hf hd hs (exec_ldStVx ..) ▸ toNat_tickTimer (s.reg x)
  · exact step_of_decode_next hf hd hs (exec_ldVxDt ..) ▸ State.reg_setReg_same s.advance x s.dt

/-- Settles O51, by induction on the number of cycles: each takes 1 from a timer, and the floor at 0 is that of the
subtraction. -/
theorem timersReachZeroAndStay : Obligations.TimersReachZeroAndStay := by
  intro n run hstep hw
  induction n with
  | zero => exact ⟨rfl, rfl⟩
  | succ n ih =>
    obtain ⟨hdt, hst⟩ := ih (fun k hk => hstep k (by omega)) (fun k hk => hw k (by omega))
    have hlast : step (run n) = .next (run (n + 1)) := hstep n (by omega)
    obtain ⟨w, _, hf, -, -⟩ := step_eq_next.1 hlast
    have hdt' := step_dt hf hlast fun x => (hw n (by omega) w x hf).1
    have hst' := step_st hf hlast fun x => (hw n (by omega) w x hf).2
    exact ⟨by omega, by omega⟩

/-! ## PC -/

/-- The six skips (spec/41_control_flow.md R160). -/
def IsSkip (i : Instr) : Prop :=
  (∃ x kk, i = .seKk x kk ∨ i = .sneKk x kk) ∨ (∃ x y, i = .seReg x y ∨ i = .sneReg x y) ∨
    ∃ x, i = .skp x ∨ i = .sknp x

/-- RET, JP, CALL and JP V0, which leave the instruction stream (spec/41_control_flow.md). -/
def IsTransfer (i : Instr) : Prop := i = .ret ∨ ∃ nnn, i = .jpAddr nnn ∨ i = .callAddr nnn ∨ i = .jpV0 nnn

theorem skipIf_pc_cases (s : State) (c : Bool) : (s.skipIf c).pc = s.pc ∨ (s.skipIf c).pc = s.pc + 2 := by
  cases c
  · exact .inl rfl
  · exact .inr rfl

/-- Everything a handler can do to PC, which the cycle has already advanced. -/
theorem exec_pc_cases {i : Instr} {s t : State} (h : exec i s = .next t) :
    t.pc = s.pc ∨ (t.pc = s.pc + 2 ∧ IsSkip i) ∨ (t.pc = s.pc - 2 ∧ ∃ x, i = .ldVxK x) ∨ IsTransfer i := by
  cases i with
  | seKk | sneKk | seReg | sneReg =>
    obtain rfl := Host.Outcome.next.inj h
    exact (skipIf_pc_cases s _).imp_right fun hpc => .inl ⟨hpc, by simp [IsSkip]⟩
  | skp | sknp =>
    simp only [exec_skp, exec_sknp, withKey_eq_next] at h
    obtain ⟨_, rfl⟩ := h
    exact (skipIf_pc_cases s _).imp_right fun hpc => .inl ⟨hpc, by simp [IsSkip]⟩
  | ldVxK x =>
    obtain ⟨k, _, rfl⟩ | ⟨_, rfl⟩ := (exec_ldVxK_eq_next ..).1 h
    · exact .inl rfl
    · exact .inr (.inr (.inl ⟨rfl, x, rfl⟩))
  | ret | jpAddr | callAddr | jpV0 => exact .inr (.inr (.inr (by simp [IsTransfer])))
  | _ => exact .inl (exec_same (p := .pc) h (by simp [writes]))

/-- Settles O12: the handler starts from PC + 2, so a skip gives PC + 4 and FX0A's step back gives PC. -/
theorem onlyControlTransfersMovePc : Obligations.OnlyControlTransfersMovePc := by
  intro s t w hf hs
  obtain ⟨u, rfl, ⟨e, -, rfl⟩ | ⟨i, hi, hx⟩⟩ := step_next_cases hf hs
  · exact .inl rfl
  · simp only [hi, Except.ok.injEq, State.endCycle_pc]
    obtain hpc | ⟨hpc, hskip⟩ | ⟨hpc, hwait⟩ | hmove := exec_pc_cases hx
    · exact .inl hpc
    · exact .inr (.inl ⟨hpc.trans (by rw [State.advance_pc]; bv_omega), hskip⟩)
    · exact .inr (.inr (.inl ⟨hpc.trans (by rw [State.advance_pc]; bv_omega), hwait⟩))
    · exact .inr (.inr (.inr hmove))

/-! ## Failing cycles -/

/-- No error depends on a hidden piece: the readers of the keypad fail on the key's index alone or not at all, and CXKK
does not fail. -/
theorem SameBut.exec_fault {h : Hidden} {s s' : State} (r : SameBut h s s') {i : Instr} {e : Fault}
    (he : exec i s = .fault e) : exec i s' = .fault e := by
  by_cases hi : reads i h
  · cases h with
    | key =>
      obtain ⟨x, rfl | rfl | rfl⟩ := hi
      · rwa [exec_skp, withKey_eq_fault, r.reg, r.pc0, ← withKey_eq_fault, ← exec_skp]
      · rwa [exec_sknp, withKey_eq_fault, r.reg, r.pc0, ← withKey_eq_fault, ← exec_sknp]
      · cases hk : firstKey s.key with
        | none => rw [exec_ldVxK_of_none _ _ hk] at he; cases he
        | some k => rw [exec_ldVxK_of_key _ _ hk] at he; cases he
    | draw => obtain ⟨x, kk, rfl⟩ := hi; cases he
    | st | stale => exact hi.elim
  · exact (r.exec_alike hi).of_fault he

theorem SameBut.step_fault {h : Hidden} {s s' : State} (r : SameBut h s s') {e : Fault} (he : step s = .fault e) :
    step s' = .fault e := by
  obtain hf | ⟨w, hf, hr⟩ := step_eq_fault.1 he
  · exact step_eq_fault.2 (.inl (r.fetch_eq.trans hf))
  · refine step_eq_fault.2 (.inr ⟨w, r.fetch_eq.trans hf, ?_⟩)
    cases hd : decode w with
    | ok i => rw [runWord_of_ok hd] at hr ⊢; exact r.advance.exec_fault hr
    | error e' => rw [runWord_of_error hd] at hr; cases hr

/-- Two states that differ in the draw brought. -/
theorem SameBut.setRndIn (d d' : Option Byte) (s : State) :
    SameBut .draw { s with rndIn := d } { s with rndIn := d' } :=
  { SameBut.refl .draw { s with rndIn := d } with rndIn := fun hne => (hne rfl).elim }

theorem settle_err {s : State} {r : Result} {c : Nat} {e : Fault} (h : (settle s r).2 = .err c e) :
    r = .fault e ∧ e.code = c := by
  cases r with
  | next t => cases h
  | fault e' => obtain ⟨rfl, rfl⟩ := Reply.err.inj h; exact ⟨rfl, rfl⟩
  | refused x => cases h

/-- Settles O9: neither the draw nor the keys bear on an error (`SameBut.step_fault`). -/
theorem failingCycleRepeatsItsError : Obligations.FailingCycleRepeatsItsError := by
  intro s rnd rnd' k c e h
  obtain ⟨he, rfl⟩ := settle_err h
  have hdraw : cyclePort rnd' s = .fault e := (SameBut.setRndIn (some rnd) (some rnd') s).step_fault he
  have hkeys : cyclePort rnd' (setKeysPort k s) = .fault e := (SameBut.setKey _ _).step_fault hdraw
  exact ⟨congrArg Prod.fst (transact_cycle_of_fault he), transact_cycle_of_fault hkeys⟩

/-! ## The draw -/

theorem step_rndIn {s t : State} (hs : step s = .next t) : t.rndIn = none := by
  obtain ⟨_, u, -, -, rfl⟩ := step_eq_next.1 hs
  rfl

theorem step_draws {s t : State} {w : Word} (hf : fetch s = .ok w) (hs : step s = .next t)
    (hw : ∀ x kk, decode w ≠ .ok (.rnd x kk)) : t.draws = s.draws := by
  obtain ⟨u, hu, rfl⟩ := step_same_before_end (p := .draw) hf hs nofun fun i hi hm => by
    obtain ⟨x, kk, rfl⟩ := draw_mem_writes hm
    exact hw x kk hi
  exact hu.2

/-- Two cycles that answer alike but for the draw answer the same: the end of a cycle drops the draw. -/
theorem AnswersAlike.step_eq_of_draw {s s' : State} (al : AnswersAlike .draw (step s) (step s')) :
    step s = step s' := by
  cases hs : step s with
  | next t =>
    obtain ⟨t', ht', r⟩ := al.of_next hs
    have e := r.eq_update
    rw [r.stack_eq nofun, r.st nofun, r.key nofun, step_rndIn ht', ← step_rndIn hs] at e
    rw [ht', e]
  | fault e => exact (al.of_fault hs).symm
  | refused x => exact absurd hs (step_ne_refused s x)

/-- Settles O44: the draw is a hidden piece that CXKK alone reads and counts. -/
theorem drawIsReadOnlyByRnd : Obligations.DrawIsReadOnlyByRnd := by
  intro s w a b hf hw
  have hfa : fetch { s with rndIn := some a } = .ok w := (fetch_setRndIn s _).trans hf
  have hread : ∀ w' i, fetch { s with rndIn := some a } = .ok w' → decode w' = .ok i → ¬ reads i .draw := by
    rintro w' i hf' hi ⟨x, kk, rfl⟩
    obtain rfl : w = w' := Except.ok.inj (hfa.symm.trans hf')
    exact hw x kk hi
  have al := (SameBut.setRndIn (some a) (some b) s).step_alike hread
  exact ⟨al.step_eq_of_draw, fun t ht => ⟨step_draws (s := { s with rndIn := some a }) hfa ht hw, step_rndIn ht⟩⟩

end Sys2Proof.Machine
end

section
/-! The family of spec/41_control_flow.md: jumps (R151, R153), the call and the return (R150, R152), and the skips
(R154 to R159). -/

namespace Sys2Proof.Machine

/-- The frame of a handler that completes, as a statement writes it. -/
theorem exec_onlyChanges {i : Instr} {s t : State} (h : exec i s = .next t) : OnlyChanges (writes i) s t :=
  fun _ hp => (exec_same h hp).keeps

/-! ## The call and the return -/

/-- With an entry in use, `j` the topmost, RET completes with PC that entry. -/
theorem exec_ret_of_top {s : State} {j : Fin 16} (h : s.sp.val = j.val + 1) :
    exec .ret s = .next { s with sp := j.castSucc, pc := s.stack[j] } := by
  rw [exec_ret, ret_eq_next]
  refine ⟨by omega, ?_⟩
  congr 1
  · simp [h]
  · exact Fin.ext (by simp [h])

/-- Settles O26: the call wrote `s.pc` to the entry that is topmost after it, and RET pops the topmost entry
(`exec_ret_of_top`). -/
theorem callThenReturnComesBack : Obligations.CallThenReturnComesBack := by
  intro nnn s t u hcall hsp hstack
  obtain ⟨hroom, rfl⟩ := call_eq_next.1 hcall
  have htop : u.sp.val = (⟨s.sp.val, hroom⟩ : Fin 16).val + 1 := congrArg Fin.val hsp
  have hpushed : u.stack[(⟨s.sp.val, hroom⟩ : Fin 16)] = s.pc := by simp [hstack]
  have hret := exec_ret_of_top htop
  exact ⟨_, hret, hpushed, rfl, exec_onlyChanges hret⟩

/-- Settles O24: the two answers of CALL, room (`call_eq_next`) and overflow (`call_eq_fault`). -/
theorem callPushesTheReturnAddress : Obligations.CallPushesTheReturnAddress := by
  intro nnn s
  refine ⟨fun hroom => ?_, fun hfull => call_eq_fault.2 ⟨Fin.ext hfull, rfl⟩⟩
  have hcall := (exec_callAddr nnn s).trans (call_eq_next.2 ⟨hroom, rfl⟩)
  refine ⟨_, hcall, rfl, fun j => ?_, toNat_addrOf nnn, exec_onlyChanges hcall⟩
  simp [Vector.getElem_set, eq_comm (a := j.val)]

/-- Settles O25: the two answers of RET, a topmost entry (`exec_ret_of_top`) and underflow (`ret_eq_fault`). -/
theorem returnPopsTheStack : Obligations.ReturnPopsTheStack := by
  refine fun s => ⟨fun j hj => ?_, fun hempty => ret_eq_fault.2 ⟨Fin.ext hempty, rfl⟩⟩
  have hret := exec_ret_of_top hj
  exact ⟨_, hret, rfl, rfl, exec_onlyChanges hret⟩

/-! ## Jumps -/

/-- Settles O23: each target is computed without a wrap (`toNat_addrOf`, `toNat_offsetTarget`). -/
theorem jumpsSetPc : Obligations.JumpsSetPc := fun nnn s =>
  ⟨⟨_, exec_jpAddr nnn s, toNat_addrOf nnn, exec_onlyChanges (exec_jpAddr nnn s)⟩,
    ⟨_, exec_jpV0 nnn s, toNat_offsetTarget (s.reg 0) nnn, exec_onlyChanges (exec_jpV0 nnn s)⟩⟩

/-! ## Skips -/

/-- The PC after a skip whose condition is a negation. -/
theorem skipIf_not_pc (s : State) (c : Bool) : (s.skipIf (!c)).pc = if c then s.pc else s.pc + 2 := by
  cases c <;> simp

/-- Settles O27: each of the four is `State.skipIf` on its condition. -/
theorem registerSkipsAddTwoWhenTheConditionHolds : Obligations.RegisterSkipsAddTwoWhenTheConditionHolds := by
  refine fun x y kk s => ⟨⟨_, exec_seKk x kk s, ?_, exec_onlyChanges (exec_seKk x kk s)⟩,
    ⟨_, exec_sneKk x kk s, ?_, exec_onlyChanges (exec_sneKk x kk s)⟩,
    ⟨_, exec_seReg x y s, ?_, exec_onlyChanges (exec_seReg x y s)⟩,
    ⟨_, exec_sneReg x y s, ?_, exec_onlyChanges (exec_sneReg x y s)⟩⟩
  · simp only [State.skipIf_pc, decide_eq_true_eq]
  · simp only [State.skipIf_pc, decide_eq_true_eq, ne_eq, ite_not]
  · simp only [State.skipIf_pc, decide_eq_true_eq]
  · simp only [State.skipIf_pc, decide_eq_true_eq, ne_eq, ite_not]

/-- The key check lets the number of a key through to that key's state. -/
theorem withKey_of_key {b : Byte} {j : Fin 16} (h : b.toNat = j.val) (s : State) (k : Bool → State) :
    withKey b s k = .next (k s.key[j]) :=
  withKey_eq_next.2 ⟨by omega, by simp [h]⟩

/-- Settles O28: the key check lets 0 to 15 through (`withKey_of_key`) and faults on the rest (`withKey_eq_fault`). -/
theorem keySkipsFollowTheKey : Obligations.KeySkipsFollowTheKey := by
  refine fun x s => ⟨fun k hk => ?_, fun hout => ?_⟩
  · have hskp := (exec_skp x s).trans (withKey_of_key hk s _)
    have hsknp := (exec_sknp x s).trans (withKey_of_key hk s _)
    exact ⟨⟨_, hskp, State.skipIf_pc s _, exec_onlyChanges hskp⟩,
      ⟨_, hsknp, skipIf_not_pc s _, exec_onlyChanges hsknp⟩⟩
  · exact ⟨(exec_skp x s).trans (withKey_eq_fault.2 ⟨hout, rfl⟩),
      (exec_sknp x s).trans (withKey_eq_fault.2 ⟨hout, rfl⟩)⟩

end Sys2Proof.Machine
end

section
/-! The family of spec/42_alu.md: loads and additions without a flag (R180 to R182), the bitwise operations (R183 to
R185), the operations that write a flag (R186 to R190), and the random byte (R191). -/

namespace Sys2Proof.Machine

/-! ## Results without a flag -/

/-- The frame of a handler that completes, by parts and by registers, as a statement writes it. -/
theorem exec_frame {i : Instr} {s t : State} (h : exec i s = .next t) :
    OnlyChanges (writes i) s t ∧ OnlyRegs (writtenRegs i) s t :=
  ⟨exec_onlyChanges h, exec_onlyRegs h⟩

/-- Settles O16: Vx reads back what was put there (`State.reg_setReg_same`). -/
theorem loadImmediateAndCopyRegister : Obligations.LoadImmediateAndCopyRegister := fun x y kk s =>
  ⟨⟨_, exec_ldKk x kk s, State.reg_setReg_same s x kk, exec_frame (exec_ldKk x kk s)⟩,
    ⟨_, exec_ldReg x y s, State.reg_setReg_same s x (s.reg y), exec_frame (exec_ldReg x y s)⟩⟩

/-- Settles O17: the sum is that of bytes. -/
theorem addImmediateWrapsWithoutFlag : Obligations.AddImmediateWrapsWithoutFlag := by
  refine fun x kk s => ⟨_, exec_addKk x kk s, ?_, exec_frame (exec_addKk x kk s)⟩
  rw [State.reg_setReg_same, BitVec.toNat_add]

/-- Settles O18: each operation on bytes is the one on their bits. -/
theorem logicalOperationsBitwise : Obligations.LogicalOperationsBitwise := by
  refine fun x y s => ⟨⟨_, exec_orReg x y s, fun b _ => ?_, exec_frame (exec_orReg x y s)⟩,
    ⟨_, exec_andReg x y s, fun b _ => ?_, exec_frame (exec_andReg x y s)⟩,
    ⟨_, exec_xorReg x y s, fun b _ => ?_, exec_frame (exec_xorReg x y s)⟩⟩
  · rw [State.reg_setReg_same, BitVec.getLsbD_or]
  · rw [State.reg_setReg_same, BitVec.getLsbD_and]
  · rw [State.reg_setReg_same, BitVec.getLsbD_xor]

/-! ## Results with a flag -/

/-- The frame of a result in Vx and a flag in VF, for SHR and SHL under either `SHIFT_SOURCE` too. -/
theorem setRegFlag_frame (s : State) (x : Reg) (b f : Byte) :
    OnlyChanges [.regs] s (s.setRegFlag x b f) ∧ OnlyRegs [x, regF] s (s.setRegFlag x b f) := by
  refine ⟨fun p hp => Same.keeps ?_, fun r hr => ?_⟩
  · cases p <;> simp [Same] at hp ⊢
  · obtain ⟨hx, hf⟩ : r ≠ x ∧ r ≠ regF := by simpa using hr
    exact State.reg_setRegFlag_other s b f hx hf

theorem carryFlag_eq (a b : Byte) : carryFlag a b = if a.toNat + b.toNat > 255 then 1 else 0 := by
  simp only [carryFlag, flagByte, decide_eq_true_eq]

theorem noBorrowFlag_eq (a b : Byte) : noBorrowFlag a b = if a.toNat > b.toNat then 1 else 0 := by
  simp only [noBorrowFlag, flagByte, decide_eq_true_eq]

theorem toNat_shiftedOutLow (a : Byte) : (shiftedOutLow a).toNat = a.toNat % 2 := by
  rw [shiftedOutLow, toNat_flagByte, BitVec.getLsbD, Nat.testBit_zero]
  simp only [decide_eq_true_eq]
  split <;> omega

theorem toNat_shiftedOutHigh (a : Byte) : (shiftedOutHigh a).toNat = a.toNat / 128 := by
  rw [shiftedOutHigh, toNat_flagByte, BitVec.getLsbD, Nat.testBit_eq_decide_div_mod_eq]
  simp only [decide_eq_true_eq]
  split <;> omega

/-- The difference of two bytes is that of their values modulo 256, also where the first is the smaller. -/
theorem toNat_sub_emod (a b : Byte) : ((a - b).toNat : Int) = ((a.toNat : Int) - (b.toNat : Int)) % 256 := by
  rw [BitVec.toNat_sub]
  omega

/-- Settles O19: the flag is written after the sum, so it stands also with x = F. -/
theorem addRegistersWithCarry : Obligations.AddRegistersWithCarry := by
  refine fun x y s => ⟨_, exec_addReg x y s, fun hx => ?_, ?_, setRegFlag_frame s x _ _⟩
  · rw [State.reg_setRegFlag_result _ _ _ hx, BitVec.toNat_add]
  · rw [State.reg_setRegFlag_flag, carryFlag_eq]

/-- A handler that answers a difference and its flag, which is SUB and SUBN with their operands exchanged. -/
theorem difference_spec {r : Result} {s : State} {x : Reg} {a b : Byte}
    (h : r = .next (s.setRegFlag x (a - b) (noBorrowFlag a b))) :
    ∃ t, r = .next t ∧ (x ≠ regF → ((t.reg x).toNat : Int) = ((a.toNat : Int) - (b.toNat : Int)) % 256) ∧
      t.reg regF = (if a.toNat > b.toNat then 1 else 0) ∧ OnlyChanges [.regs] s t ∧ OnlyRegs [x, regF] s t := by
  refine ⟨_, h, fun hx => ?_, ?_, setRegFlag_frame s x _ _⟩
  · rw [State.reg_setRegFlag_result _ _ _ hx, toNat_sub_emod]
  · rw [State.reg_setRegFlag_flag, noBorrowFlag_eq]

/-- Settles O20: both are differences (`difference_spec`), with the minuend Vx and Vy. -/
theorem subtractWithStrictNoBorrow : Obligations.SubtractWithStrictNoBorrow := fun x y s =>
  ⟨difference_spec (exec_subReg x y s), difference_spec (exec_subnReg x y s)⟩

theorem shiftRight_spec (src : Config.ShiftSource) (x y : Reg) (s : State) :
    ∃ t, shiftRight src x y s = .next t ∧ (x ≠ regF → (t.reg x).toNat = (shiftOperand src x y s).toNat / 2) ∧
      (t.reg regF).toNat = (shiftOperand src x y s).toNat % 2 ∧ OnlyChanges [.regs] s t ∧ OnlyRegs [x, regF] s t := by
  refine ⟨_, rfl, fun hx => ?_, ?_, setRegFlag_frame s x _ _⟩
  · rw [State.reg_setRegFlag_result _ _ _ hx, BitVec.toNat_ushiftRight, Nat.shiftRight_one]
  · rw [State.reg_setRegFlag_flag, toNat_shiftedOutLow]

theorem shiftLeft_spec (src : Config.ShiftSource) (x y : Reg) (s : State) :
    ∃ t, shiftLeft src x y s = .next t ∧
      (x ≠ regF → (t.reg x).toNat = (shiftOperand src x y s).toNat * 2 % 256) ∧
      (t.reg regF).toNat = (shiftOperand src x y s).toNat / 128 ∧ OnlyChanges [.regs] s t ∧
      OnlyRegs [x, regF] s t := by
  refine ⟨_, rfl, fun hx => ?_, ?_, setRegFlag_frame s x _ _⟩
  · rw [State.reg_setRegFlag_result _ _ _ hx, BitVec.toNat_shiftLeft, Nat.shiftLeft_eq, pow_one]
  · rw [State.reg_setRegFlag_flag, toNat_shiftedOutHigh]

/-- Settles O21: one lemma a direction, for either source; this hardware's is `VX`, whose operand is Vx. -/
theorem shiftByOneWithBitOut : Obligations.ShiftByOneWithBitOut := fun x y s =>
  ⟨shiftRight_spec .vx x y s, shiftLeft_spec .vx x y s, shiftRight_spec .vy x y s, shiftLeft_spec .vy x y s⟩

/-! ## The random byte -/

theorem draw_of_rndIn {s : State} {rnd : Byte} (h : s.rndIn = some rnd) : s.draw = rnd := by
  rw [State.draw, h, Option.getD_some]

theorem exec_rnd_reg {x : Reg} {kk : Byte} {s t : State} (h : exec (.rnd x kk) s = .next t) :
    t.reg x = s.draw &&& kk := by
  obtain rfl := Host.Outcome.next.inj h
  exact State.reg_setReg_same s x _

/-- Settles O22: the draw is the one brought, if one is, and the mask clears the other bits whatever it is. -/
theorem randomByteIsTheMaskedDraw : Obligations.RandomByteIsTheMaskedDraw := by
  refine fun x kk s => ⟨?_, fun w rnd hf hd => ?_⟩
  · have hx := exec_rnd x kk s
    refine ⟨_, hx, fun rnd hr => ?_, fun b hb => ?_, exec_frame hx⟩
    · rw [exec_rnd_reg hx, draw_of_rndIn hr]
    · rw [exec_rnd_reg hx, BitVec.getLsbD_and, hb, Bool.and_false]
  · have hx := exec_rnd x kk (State.advance { s with rndIn := some rnd })
    have hstep : cyclePort rnd s = _ := step_eq_next.2 ⟨w, _, hf, (runWord_of_ok hd _).trans hx, rfl⟩
    exact ⟨_, hstep, exec_rnd_reg hx⟩

end Sys2Proof.Machine
end

section
/-! The family of spec/43_index_memory.md: the index register (R210 to R212), the decimal digits (R213), and the store and
the load of V0..Vx (R214 to R216). -/

namespace Sys2Proof.Machine

/-! ## The index register -/

/-- Settles O29: each value of I is computed as a natural, with a wrap only in the sum (`toNat_addrOf`,
`toNat_glyphAddress`). -/
theorem indexRegisterArithmetic : Obligations.IndexRegisterArithmetic := by
  refine fun x nnn s => ⟨⟨_, exec_ldI nnn s, toNat_addrOf nnn, exec_onlyChanges (exec_ldI nnn s)⟩,
    ⟨_, exec_addI x s, ?_, exec_onlyChanges (exec_addI x s)⟩,
    ⟨_, exec_ldF x s, toNat_glyphAddress (s.reg x), exec_onlyChanges (exec_ldF x s)⟩⟩
  have hwide : (s.reg x).toNat < 2 ^ 16 := (s.reg x).isLt.trans (by decide)
  rw [State.setI_i, indexPlus, BitVec.toNat_add, BitVec.toNat_setWidth, Nat.mod_eq_of_lt hwide]

/-! ## The window of a load or a store -/

theorem withWindow_of_le {a len : Nat} (h : a + len ≤ 4096) (s k : State) : withWindow a len s k = .next k :=
  withWindow_eq_next.2 ⟨(windowInside_iff a len).2 (.inr h), rfl⟩

theorem withWindow_succ_of_ge {a n : Nat} (h : 4096 ≤ a + n) (s k : State) :
    withWindow a (n + 1) s k = .fault (.memoryBounds s.pc0 .mem (max a 4096)) :=
  withWindow_eq_fault.2 ⟨(windowInside_eq_false a (n + 1)).2 ⟨n.succ_pos, Nat.lt_succ_of_le h⟩, rfl⟩

/-! ## Decimal digits -/

/-- Every digit that FX33 stores reads back from its place in the window. -/
theorem exec_ldB_read {x : Reg} {s t : State} {k : Nat} (hm : s.mem.wf = true) (h : exec (.ldB x) s = .next t)
    (hk : k < (bcdDigits (s.reg x)).length) : t.mem.read (s.i.toNat + k) = (bcdDigits (s.reg x))[k] := by
  obtain ⟨hin, rfl⟩ := withWindow_eq_next.1 h
  exact Memory.read_writeBytes_inside _ hm hk (((windowInside_iff ..).1 hin).resolve_left (by decide))

/-- Settles O30: the window check decides between the two answers, and the stored digits read back
(`exec_ldB_read`). -/
theorem bcdStoresTheDecimalDigits : Obligations.BcdStoresTheDecimalDigits := by
  refine fun x s hm => ⟨fun hin => ?_, fun hout => (exec_ldB x s).trans (withWindow_succ_of_ge hout s _)⟩
  have hx := (exec_ldB x s).trans (withWindow_of_le hin s _)
  have digit (k : Nat) (hk : k < 3) := exec_ldB_read hm hx hk
  refine ⟨_, hx, ?_, ?_, ?_, exec_onlyBytes hx, exec_onlyChanges hx⟩
  · exact (congrArg BitVec.toNat (digit 0 (by decide))).trans BitVec.toNat_udiv
  · exact (congrArg BitVec.toNat (digit 1 (by decide))).trans
      (BitVec.toNat_umod.trans (congrArg (· % 10) BitVec.toNat_udiv))
  · exact (congrArg BitVec.toNat (digit 2 (by decide))).trans BitVec.toNat_umod

/-! ## The store and the load of V0..Vx -/

/-- Settles O31: the window check decides between the two answers, and the stored registers read back
(`exec_ldMemVx_read`). -/
theorem storeRegistersToMemory : Obligations.StoreRegistersToMemory := by
  refine fun x s hm => ⟨fun hin => ?_, fun hout => (exec_ldMemVx x s).trans (withWindow_succ_of_ge hout s _)⟩
  have hx := (exec_ldMemVx x s).trans (withWindow_of_le hin s _)
  exact ⟨_, hx, fun r hr => exec_ldMemVx_read hm hx hr, exec_onlyBytes hx, exec_onlyChanges hx⟩

/-- Settles O32: the window check decides between the two answers, and `loadRegs` takes a register from memory or leaves
it (`getElem_loadRegs`). -/
theorem loadRegistersFromMemory : Obligations.LoadRegistersFromMemory := by
  refine fun x s => ⟨fun hin => ?_, fun hout => (exec_ldVxMem x s).trans (withWindow_succ_of_ge hout s _)⟩
  have hx := (exec_ldVxMem x s).trans (withWindow_of_le hin s _)
  exact ⟨_, hx, fun r => getElem_loadRegs s.v s.mem s.base x r, exec_onlyChanges hx⟩

/-- Settles O33: the store leaves I, so the load has the same window, which is inside memory, and reads there what the
store put (`exec_ldMemVx_read`). -/
theorem storeThenLoadBringsRegistersBack : Obligations.StoreThenLoadBringsRegistersBack := by
  intro x s t v hm hstore
  have hi : t.i = s.i := exec_same (p := .i) hstore (by simp [writes])
  have hin : t.i.toNat + x.val < 4096 := hi ▸ (exec_ldMemVx_eq_next.1 hstore).1
  obtain ⟨u, hload, hregs, -⟩ := (loadRegistersFromMemory x { t with v := v }).1 hin
  refine ⟨u, hload, fun r hr => ?_, fun r hr => (hregs r).trans (if_neg (not_le_of_gt hr))⟩
  rw [hregs r, if_pos hr]
  exact (congrArg (fun w : Word => t.mem.read (w.toNat + r.val)) hi).trans (exec_ldMemVx_read hm hstore hr)

end Sys2Proof.Machine
end

section
/-! The family of spec/44_display.md: the clear screen (R240), the sprite draw with its collision flag (R241 to R244),
and who writes the framebuffer (R245). -/

namespace Sys2Proof.Machine

/-! ## The clear screen -/

/-- Settles O35: CLS answers the cleared framebuffer, and `writes` names no other part. -/
theorem clearScreenUnlightsEveryPixel : Obligations.ClearScreenUnlightsEveryPixel :=
  fun s => ⟨_, exec_cls s, pixel_clearedFb, exec_onlyChanges (exec_cls s)⟩

/-! ## The pixels a sprite covers -/

theorem target_wrap_eq_some {xo yo r b : Nat} {px : Fin 64} {py : Fin 32} :
    target .wrap xo yo r b = some (px, py) ↔ px.val = (xo + b) % 64 ∧ py.val = (yo + r) % 32 := by
  rw [target, Option.some.injEq, Prod.mk.injEq, Fin.ext_iff, Fin.ext_iff]
  exact and_congr eq_comm eq_comm

theorem target_clip_eq_some {xo yo r b : Nat} {px : Fin 64} {py : Fin 32} :
    target .clip xo yo r b = some (px, py) ↔ px.val = xo + b ∧ py.val = yo + r := by
  have := px.isLt
  have := py.isLt
  simp only [target, Option.dite_none_right_eq_some, Option.some.injEq, Prod.mk.injEq, Fin.ext_iff]
  constructor
  · rintro ⟨_, hx, hy⟩; exact ⟨hx.symm, hy.symm⟩
  · rintro ⟨hx, hy⟩; exact ⟨by omega, hx.symm, hy.symm⟩

/-- The pixels a statement calls covered are the targets of the drawing loops. -/
theorem spriteCovers_iff_mem_spots {policy : Config.DrawEdgePolicy} {x y : Reg} {n : Nat} {s : State} {px : Fin 64}
    {py : Fin 32} : SpriteCovers policy x y n s px py ↔
      some (px, py) ∈ spots policy (originX (s.reg x)) (originY (s.reg y)) 0 (s.mem.readBytes s.base n) := by
  cases policy <;>
    simp only [SpriteCovers, mem_spots, Memory.length_readBytes, Memory.getElem_readBytes, spriteBit, exists_prop,
      Nat.zero_add, target_wrap_eq_some, target_clip_eq_some, originX, originY, State.base]

/-- Which pixels a sprite covers depends on memory, I and the two coordinates alone. -/
theorem spriteCovers_congr {policy : Config.DrawEdgePolicy} {x y : Reg} {n : Nat} {s t : State} (hm : t.mem = s.mem)
    (hi : t.i = s.i) (hx : t.reg x = s.reg x) (hy : t.reg y = s.reg y) (px : Fin 64) (py : Fin 32) :
    SpriteCovers policy x y n t px py ↔ SpriteCovers policy x y n s px py := by
  rw [SpriteCovers, SpriteCovers, hm, hi, hx, hy]

/-! ## What one draw does -/

section Draw

variable {policy : Config.DrawEdgePolicy} {x y : Reg} {n : Fin 16} {s t : State}

/-- A draw completes exactly when its window is empty or inside memory. -/
theorem drawWith_completes_iff : (∃ t, drawWith policy x y n s = .next t) ↔ n.val = 0 ∨ s.i.toNat + n.val ≤ 4096 := by
  simp only [drawWith, withWindow_eq_next, exists_and_left, exists_eq', and_true]
  exact windowInside_iff s.base n.val

theorem drawWith_frame (h : drawWith policy x y n s = .next t) :
    OnlyChanges [.regs, .fb] s t ∧ OnlyRegs [regF] s t := by
  obtain ⟨-, rfl⟩ := withWindow_eq_next.1 h
  refine ⟨fun p hp => Same.keeps ?_, fun r hr => State.reg_setReg_other _ _ (by simpa using hr)⟩
  cases p <;> simp [Same] at hp ⊢

/-- `drawSprite_spec` for a draw, whose sprite has at most 15 rows. -/
theorem drawWith_spec (h : drawWith policy x y n s = .next t) :
    (∀ px py, SpriteCovers policy x y n.val s px py → pixel t.fb px py = !pixel s.fb px py) ∧
    (∀ px py, ¬SpriteCovers policy x y n.val s px py → pixel t.fb px py = pixel s.fb px py) ∧
    ∃ hit, t.reg regF = flagByte hit ∧
      (hit = true ↔ ∃ px py, SpriteCovers policy x y n.val s px py ∧ pixel s.fb px py = true) := by
  obtain ⟨-, rfl⟩ := withWindow_eq_next.1 h
  have hrows : (s.mem.readBytes s.base n.val).length ≤ 32 := by rw [Memory.length_readBytes]; omega
  obtain ⟨hfb, hhit⟩ := drawSprite_spec policy (originX (s.reg x)) (originY (s.reg y)) _ s.fb hrows
  simp only [spriteCovers_iff_mem_spots]
  refine ⟨fun px py hc => ?_, fun px py hc => ?_, _, State.reg_setReg_same .., hhit⟩
  · exact (hfb px py).trans (by rw [decide_eq_true hc, Bool.true_xor])
  · exact (hfb px py).trans (by rw [decide_eq_false hc, Bool.false_xor])

theorem drawWith_flag_eq_one (h : drawWith policy x y n s = .next t) :
    t.reg regF = 1 ↔ ∃ px py, SpriteCovers policy x y n.val s px py ∧ pixel s.fb px py = true := by
  obtain ⟨-, -, hit, hflag, hhit⟩ := drawWith_spec h
  rw [hflag, flagByte_eq_one, hhit]

theorem drawWith_flag_eq_zero (h : drawWith policy x y n s = .next t) :
    t.reg regF = 0 ↔ ∀ px py, SpriteCovers policy x y n.val s px py → pixel s.fb px py = false := by
  obtain ⟨-, -, hit, hflag, hhit⟩ := drawWith_spec h
  rw [hflag, flagByte_eq_zero, ← Bool.not_eq_true, hhit]
  simp

theorem drawWith_fault (hn : 0 < n.val) (hout : 4096 ≤ s.i.toNat + n.val - 1) :
    drawWith policy x y n s = .fault (.memoryBounds (s.pc - 2) .mem (max s.i.toNat 4096)) :=
  withWindow_eq_fault.2 ⟨(windowInside_eq_false s.base n.val).2 ⟨hn, by rw [State.base]; omega⟩, rfl⟩

end Draw

/-- Settles O36: this hardware's DXYN is the draw under WRAP (`exec_drw`), and either policy's draw inverts the pixels
under the set bits and looks at them before (`drawWith_spec`). -/
theorem drawIsXorWithCollisionFlag : Obligations.DrawIsXorWithCollisionFlag := by
  refine ⟨fun x y n s => ⟨exec_drw x y n s, drawWith_completes_iff.2⟩,
    fun policy x y n s => ⟨fun hin => ?_, drawWith_fault⟩⟩
  obtain ⟨t, h⟩ := (drawWith_completes_iff (policy := policy) (x := x) (y := y)).2 hin
  obtain ⟨hcovered, huncovered, -⟩ := drawWith_spec h
  exact ⟨t, h, fun px py => ⟨hcovered px py, huncovered px py⟩, (drawWith_flag_eq_one h).2, (drawWith_flag_eq_zero h).2,
    drawWith_frame h⟩

/-! ## The same sprite drawn twice -/

/-- Settles O37: the first draw moves none of what places the sprite, so the second covers the same pixels, and inverts
back what the first inverted. -/
theorem drawingTwiceRestoresTheScreen : Obligations.DrawingTwiceRestoresTheScreen := by
  intro x y n s t hx hy h
  have hi : t.i = s.i := exec_same (p := .i) h (by simp [writes])
  have hm : t.mem = s.mem := exec_same (p := .mem) h (by simp [writes])
  have hreg := exec_onlyRegs h
  have same (px : Fin 64) (py : Fin 32) :
      SpriteCovers .wrap x y n.val t px py ↔ SpriteCovers .wrap x y n.val s px py :=
    spriteCovers_congr hm hi (hreg x (by simpa [writtenRegs] using hx)) (hreg y (by simpa [writtenRegs] using hy)) px py
  obtain ⟨u, hu⟩ : ∃ u, drawWith .wrap x y n t = .next u :=
    drawWith_completes_iff.2 (hi ▸ drawWith_completes_iff.1 ⟨t, h⟩)
  obtain ⟨first, firstOff, -⟩ := drawWith_spec h
  obtain ⟨second, secondOff, -⟩ := drawWith_spec hu
  refine ⟨u, hu, fb_ext fun px py => ?_, drawWith_flag_eq_one h, (drawWith_flag_eq_one hu).trans ?_⟩
  · by_cases hc : SpriteCovers .wrap x y n.val s px py
    · rw [second px py ((same px py).2 hc), first px py hc, Bool.not_not]
    · rw [secondOff px py (mt (same px py).1 hc), firstOff px py hc]
  · refine exists₂_congr fun px py => (and_congr_left' (same px py)).trans (and_congr_right fun hc => ?_)
    rw [first px py hc, Bool.not_eq_true']

/-! ## Who writes the framebuffer -/

theorem fb_mem_writes {i : Instr} (h : .fb ∈ writes i) : i = .cls ∨ ∃ x y n, i = .drw x y n := by
  cases i <;> simp [writes] at h ⊢

/-- A transaction that does not return `ok` leaves the state it found (R137). -/
theorem settle_of_not_ok {s : State} {r : Result} (h : (settle s r).2 ≠ .ok) : (settle s r).1 = s := by
  cases r with
  | next t => exact absurd rfl h
  | fault e => rfl
  | refused x => rfl

/-- Settles O14: a changed framebuffer is one that the instruction has among its writes, and the ports answer for the
rest. -/
theorem onlyClsAndDrwWriteTheFramebuffer : Obligations.OnlyClsAndDrwWriteTheFramebuffer := by
  intro s t w rnd p q
  refine ⟨fun hf hs hne => ?_, pixel_clearedFb q.1 q.2, fun hfail => congrArg State.fb (settle_of_not_ok hfail), rfl,
    rfl⟩
  have hfetch : fetch { s with rndIn := some rnd } = .ok w := (fetch_setRndIn s (some rnd)).trans hf
  obtain hsame | ⟨i, hi, hw⟩ := cycle_same_or_writes (p := .fb) hfetch hs (by simp)
  · exact absurd (congrArg (fun fb => pixel fb p.1 p.2) hsame) hne
  · obtain rfl | ⟨x, y, n, rfl⟩ := fb_mem_writes hw
    · exact .inl hi
    · exact .inr ⟨x, y, n, hi⟩

end Sys2Proof.Machine
end

section
/-! The family of spec/45_timers_keys.md: the timer transfers (R260, R262, R263) and the wait for a key (R261). -/

namespace Sys2Proof.Machine

/-! ## Timer transfers -/

/-- Settles O38: each handler's answer is its one transfer, and the frames are those of `writes` and `writtenRegs`. -/
theorem timerTransfers : Obligations.TimerTransfers := fun x s =>
  ⟨⟨_, exec_ldVxDt x s, State.reg_setReg_same s x s.dt, exec_frame (exec_ldVxDt x s)⟩,
    ⟨_, exec_ldDtVx x s, rfl, exec_onlyChanges (exec_ldDtVx x s)⟩,
    ⟨_, exec_ldStVx x s, rfl, exec_onlyChanges (exec_ldStVx x s)⟩⟩

/-! ## The wait for a key

FX0A has both the registers and PC among its `writes`, but each of its two answers changes only one of them. -/

theorem setReg_same {s : State} {x : Reg} {b : Byte} {p : Part} (hp : p ∉ [.regs]) : Same p s (s.setReg x b) := by
  cases p <;> simp [Same] at hp ⊢

theorem setPc_same {s : State} {w : Word} {p : Part} (hp : p ∉ [.pc]) : Same p s (s.setPc w) := by
  cases p <;> simp [Same] at hp ⊢

/-- With no key pressed the handler undoes the cycle's advance of PC. -/
theorem exec_ldVxK_advance_of_none {s : State} (x : Reg) (h : firstKey s.key = none) :
    exec (.ldVxK x) s.advance = .next s := by
  have hpc : s.advance.pc - 2 = s.pc := BitVec.add_sub_cancel s.pc 2
  rw [exec_ldVxK_of_none x s.advance h, hpc]
  rfl

/-- A cycle that waits for a key is the end of a cycle and nothing else. -/
theorem step_of_wait {s : State} {w : Word} {x : Reg} (hf : fetch s = .ok w) (hd : decode w = .ok (.ldVxK x))
    (h : firstKey s.key = none) : step s = .next (endCycle s) := by
  rw [step_of_decode hf hd, exec_ldVxK_advance_of_none x h, finish]

/-- Settles O39: the two answers of FX0A are told apart by `firstKey`, and a waiting cycle is `endCycle` alone
(`step_of_wait`). -/
theorem waitForKeyTakesTheLeastKeyOrRepeats : Obligations.WaitForKeyTakesTheLeastKeyOrRepeats := by
  refine fun x s => ⟨fun k hk hleast => ?_, fun hnone => ?_⟩
  · have hx := exec_ldVxK_of_key x s (firstKey_eq_some.2 ⟨hk, hleast⟩)
    refine ⟨_, hx, ?_, fun p hp => (setReg_same hp).keeps, exec_onlyRegs hx⟩
    rw [State.reg_setReg_same, BitVec.toNat_ofNat, Nat.mod_eq_of_lt (by omega)]
  · have hkey := firstKey_eq_none.2 hnone
    exact ⟨⟨_, exec_ldVxK_of_none x s hkey, rfl, fun p hp => (setPc_same hp).keeps⟩,
      fun w hf hd => ⟨_, step_of_wait hf hd hkey, toNat_tickTimer s.dt, toNat_tickTimer s.st,
        fun p hp => (endCycle_same hp).keeps⟩⟩

end Sys2Proof.Machine
end

section
/-! The family of spec/60_exceptions.md: the whole error set of a cycle (R282 to R284), with the info of each error
(R286). -/

namespace Sys2Proof.Machine

/-- The error set of the handlers (R282 to R284): instruction `i`, at address `pc0` and with the operands of `s`, has
the condition of error `e`. -/
def HasError (i : Instr) (pc0 : Word) (s : State) (e : Fault) : Prop :=
  (∃ nnn, i = .callAddr nnn ∧ s.sp = 16 ∧ e = .stackOverflow pc0) ∨
  (i = .ret ∧ s.sp = 0 ∧ e = .stackUnderflow pc0) ∨
  (∃ x y n, i = .drw x y n ∧ 0 < n.val ∧ 4096 ≤ s.i.toNat + n.val - 1 ∧
    e = .memoryBounds pc0 .mem (max s.i.toNat 4096)) ∨
  (∃ x, i = .ldB x ∧ 4096 ≤ s.i.toNat + 2 ∧ e = .memoryBounds pc0 .mem (max s.i.toNat 4096)) ∨
  (∃ x, i = .ldMemVx x ∧ 4096 ≤ s.i.toNat + x.val ∧ e = .memoryBounds pc0 .mem (max s.i.toNat 4096)) ∨
  (∃ x, i = .ldVxMem x ∧ 4096 ≤ s.i.toNat + x.val ∧ e = .memoryBounds pc0 .mem (max s.i.toNat 4096)) ∨
  ∃ x, (i = .skp x ∨ i = .sknp x) ∧ 16 ≤ (s.reg x).toNat ∧ e = .memoryBounds pc0 .keypad (s.reg x).toNat

/-- The window check fails when the last address of a window that is not empty is outside memory
(spec/43_index_memory.md R216). -/
theorem withWindow_eq_fault_iff_last {a len : Nat} {s k : State} {e : Fault} :
    withWindow a len s k = .fault e ↔
      0 < len ∧ 4096 ≤ a + len - 1 ∧ e = .memoryBounds s.pc0 .mem (max a 4096) := by
  rw [withWindow_eq_fault, windowInside_eq_false, and_assoc]
  exact and_congr_right fun hlen => and_congr_left' (by omega)

theorem exec_ldVxK_ne_fault (x : Reg) (s : State) (e : Fault) : exec (.ldVxK x) s ≠ .fault e := by
  cases hk : firstKey s.key with
  | none => rw [exec_ldVxK_of_none _ _ hk]; nofun
  | some k => rw [exec_ldVxK_of_key _ _ hk]; nofun

/-- A handler raises exactly the errors of the error set: the seven that can raise do so through the stack operations,
the window check or the key check. -/
theorem exec_eq_fault {i : Instr} {s : State} {e : Fault} : exec i s = .fault e ↔ HasError i s.pc0 s e := by
  cases i with
  | callAddr nnn => simp [HasError, exec_callAddr, call_eq_fault]
  | ret => simp [HasError, exec_ret, ret_eq_fault]
  | drw x y n => simp [HasError, exec_drw, drawWith, withWindow_eq_fault_iff_last, State.base]
  | ldB x => simp [HasError, exec_ldB, withWindow_eq_fault_iff_last, State.base]
  | ldMemVx x => simp [HasError, exec_ldMemVx, withWindow_eq_fault_iff_last, State.base]
  | ldVxMem x => simp [HasError, exec_ldVxMem, withWindow_eq_fault_iff_last, State.base]
  | skp x => simp [HasError, exec_skp, withKey_eq_fault]
  | sknp x => simp [HasError, exec_sknp, withKey_eq_fault]
  | ldVxK x => simp [HasError, exec_ldVxK_ne_fault]
  | _ => exact ⟨nofun, by simp [HasError]⟩

/-- Settles O10: a cycle fails in its fetch or in the handler of its word, a handler fails exactly as the error set says
(`exec_eq_fault`), and `pc0` is the PC from before the cycle's advance. -/
theorem cycleFailsExactlyAsTheErrorSetSays : Obligations.CycleFailsExactlyAsTheErrorSetSays := by
  intro s e
  rw [step_eq_fault, fetch_eq_error]
  refine or_congr (and_congr_left' (by omega)) (exists_congr fun w => and_congr_right fun _ => ?_)
  cases hd : decode w with
  | ok i =>
    simp only [Except.ok.injEq]
    rw [runWord_of_ok hd, exec_eq_fault, pc0_advance]
    rfl
  | error _ => simp [runWord_of_error hd]

end Sys2Proof.Machine
end

section
/-! The family of spec/70_reset_and_hazards.md: the reset state (R310) as the start of every run. -/

namespace Sys2Proof.Machine

/-- Settles O48: the base case of the invariant along a session (`inv_reset`). Memory lists no cell, PC is 0x200 and every
stack entry is 0. -/
theorem invariantHoldsAtReset : Obligations.InvariantHoldsAtReset := inv_reset

end Sys2Proof.Machine
end

section
/-! The decoder against the opcode map of spec/30_encoding.md: each row's match and mask (R106), the words that no row
takes (R107), and words written out (R113). -/

namespace Sys2Proof

/-! ## The masks of the opcode map (R106)

A mask keeps the selector fields of a word and clears the others. -/

theorem and_F000 (w : Word) : w &&& 0xF000 = encodeNnn (fieldOp w) 0 :=
  calc w &&& 0xF000
    _ = (fieldOp w ++ fieldNnn w) &&& (BitVec.allOnes 4 ++ 0#12) := congrArg (· &&& 0xF000) (encodeNnn_fields w).symm
    _ = encodeNnn (fieldOp w) 0 := by simp only [BitVec.and_append, BitVec.and_allOnes, BitVec.and_zero]; rfl

theorem and_F00F (w : Word) : w &&& 0xF00F = encodeXyn (fieldOp w) 0 0 (fieldN w) :=
  calc w &&& 0xF00F
    _ = (fieldOp w ++ nibble (fieldX w) ++ nibble (fieldY w) ++ fieldN w) &&&
        (BitVec.allOnes 4 ++ 0#4 ++ 0#4 ++ BitVec.allOnes 4) := congrArg (· &&& 0xF00F) (encodeXyn_fields w).symm
    _ = encodeXyn (fieldOp w) 0 0 (fieldN w) := by
      simp only [BitVec.and_append, BitVec.and_allOnes, BitVec.and_zero]; rfl

theorem and_F0FF (w : Word) : w &&& 0xF0FF = encodeXkk (fieldOp w) 0 (fieldKk w) :=
  calc w &&& 0xF0FF
    _ = (fieldOp w ++ nibble (fieldX w) ++ fieldKk w) &&& (BitVec.allOnes 4 ++ 0#4 ++ BitVec.allOnes 8) :=
      congrArg (· &&& 0xF0FF) (encodeXkk_fields w).symm
    _ = encodeXkk (fieldOp w) 0 (fieldKk w) := by
      simp only [BitVec.and_append, BitVec.and_allOnes, BitVec.and_zero]; rfl

theorem and_F000_eq_iff (w : Word) (op : BitVec 4) : w &&& 0xF000 = encodeNnn op 0 ↔ fieldOp w = op := by
  rw [and_F000]
  exact ⟨fun h => by simpa using congrArg fieldOp h, fun hop => by rw [hop]⟩

theorem and_F00F_eq_iff (w : Word) (op n : BitVec 4) :
    w &&& 0xF00F = encodeXyn op 0 0 n ↔ fieldOp w = op ∧ fieldN w = n := by
  rw [and_F00F]
  exact ⟨fun h => ⟨by simpa using congrArg fieldOp h, by simpa using congrArg fieldN h⟩,
    fun ⟨hop, hn⟩ => by rw [hop, hn]⟩

theorem and_F0FF_eq_iff (w : Word) (op : BitVec 4) (kk : Byte) :
    w &&& 0xF0FF = encodeXkk op 0 kk ↔ fieldOp w = op ∧ fieldKk w = kk := by
  rw [and_F0FF]
  exact ⟨fun h => ⟨by simpa using congrArg fieldOp h, by simpa using congrArg fieldKk h⟩,
    fun ⟨hop, hkk⟩ => by rw [hop, hkk]⟩

/-- Settles O2: the operands are the decoder's own fields, a row's match under its mask says which selector fields the
word has (`and_F000_eq_iff`, `and_F00F_eq_iff`, `and_F0FF_eq_iff`), and the decoder answers the row's instruction
exactly for these (`decode_eq_ok` and its second level). -/
theorem decodeFollowsTheOpcodeMap : Obligations.DecodeFollowsTheOpcodeMap := by
  intro w x y n kk nnn hx hy hn hkk hnnn
  obtain rfl : fieldX w = x := reg_eq_of_val hx.symm
  obtain rfl : fieldY w = y := reg_eq_of_val hy.symm
  obtain rfl : fieldCount w = n := reg_eq_of_val (by omega)
  obtain rfl : fieldKk w = kk := BitVec.eq_of_toNat_eq ((toNat_fieldKk w).trans hkk.symm)
  obtain rfl : fieldNnn w = nnn := BitVec.eq_of_toNat_eq ((toNat_fieldNnn w).trans hnnn.symm)
  have op := and_F000_eq_iff w
  have opN := and_F00F_eq_iff w
  have opKk := and_F0FF_eq_iff w
  refine ⟨(opN 0x0 0x0).trans ?_, (opN 0x0 0xE).trans ?_, (op 0x1).trans ?_, (op 0x2).trans ?_, (op 0x3).trans ?_,
    (op 0x4).trans ?_, (op 0x5).trans ?_, (op 0x6).trans ?_, (op 0x7).trans ?_,
    (opN 0x8 0x0).trans ?_, (opN 0x8 0x1).trans ?_, (opN 0x8 0x2).trans ?_, (opN 0x8 0x3).trans ?_,
    (opN 0x8 0x4).trans ?_, (opN 0x8 0x5).trans ?_, (opN 0x8 0x6).trans ?_, (opN 0x8 0x7).trans ?_,
    (opN 0x8 0xE).trans ?_, (op 0x9).trans ?_, (op 0xA).trans ?_, (op 0xB).trans ?_, (op 0xC).trans ?_,
    (op 0xD).trans ?_, (opN 0xE 0xE).trans ?_, (opN 0xE 0x1).trans ?_,
    (opKk 0xF 0x07).trans ?_, (opKk 0xF 0x0A).trans ?_, (opKk 0xF 0x15).trans ?_, (opKk 0xF 0x18).trans ?_,
    (opKk 0xF 0x1E).trans ?_, (opKk 0xF 0x29).trans ?_, (opKk 0xF 0x33).trans ?_, (opKk 0xF 0x55).trans ?_,
    (opKk 0xF 0x65).trans ?_⟩
  all_goals simp [decode_eq_ok, decode0_eq_ok, decode8_eq_ok, decodeE_eq_ok, decodeF_eq_ok]

/-! ## The unmapped words (R107) -/

theorem exists_error_iff {r : Except Unmapped Instr} : (∃ e, r = .error e) ↔ ∀ i, r ≠ .ok i := by
  cases r <;> simp

theorem decode0_error_iff (w : Word) : (∃ e, decode0 w = .error e) ↔ (fieldN w).toNat ∉ [0x0, 0xE] := by
  simp [exists_error_iff, decode0_eq_ok, BitVec.toNat_eq, forall_and]

/-- R107 lists family 8 by the selectors it lacks, the decoder by those it has. -/
theorem decode8_error_iff (w : Word) :
    (∃ e, decode8 w = .error e) ↔ (fieldN w).toNat ∈ [0x8, 0x9, 0xA, 0xB, 0xC, 0xD, 0xF] := by
  have compl : ∀ n : BitVec 4, n.toNat ∈ [0x8, 0x9, 0xA, 0xB, 0xC, 0xD, 0xF] ↔
      n.toNat ∉ [0x0, 0x1, 0x2, 0x3, 0x4, 0x5, 0x6, 0x7, 0xE] := by decide
  rw [compl]
  simp [exists_error_iff, decode8_eq_ok, BitVec.toNat_eq, forall_and]

theorem decodeE_error_iff (w : Word) : (∃ e, decodeE w = .error e) ↔ (fieldN w).toNat ∉ [0x1, 0xE] := by
  simp [exists_error_iff, decodeE_eq_ok, BitVec.toNat_eq, forall_and, and_comm]

theorem decodeF_error_iff (w : Word) : (∃ e, decodeF w = .error e) ↔
    (fieldKk w).toNat ∉ [0x07, 0x0A, 0x15, 0x18, 0x1E, 0x29, 0x33, 0x55, 0x65] := by
  simp [exists_error_iff, decodeF_eq_ok, BitVec.toNat_eq, forall_and]

/-- Only a family with a second level has words without an instruction: every other primary selector has its row. -/
theorem decode_error_iff (w : Word) : (∃ e, decode w = .error e) ↔
    (fieldOp w = 0x0 ∧ ∃ e, decode0 w = .error e) ∨ (fieldOp w = 0x8 ∧ ∃ e, decode8 w = .error e) ∨
    (fieldOp w = 0xE ∧ ∃ e, decodeE w = .error e) ∨ (fieldOp w = 0xF ∧ ∃ e, decodeF w = .error e) := by
  unfold decode
  rcases op_cases (fieldOp w) with h | h | h | h | h | h | h | h | h | h | h | h | h | h | h | h <;> simp [h]

theorem toNat_fieldOp (w : Word) : (fieldOp w).toNat = w.toNat / 4096 := by
  rw [fieldOp, toNat_nibbleAt]
  omega

theorem toNat_fieldN (w : Word) : (fieldN w).toNat = w.toNat % 16 := by
  rw [fieldN, toNat_nibbleAt, pow_zero, Nat.div_one]

/-- Settles O3: the four families that can fail (`decode_error_iff`), the sub-selectors at which each does, and the
fields as numbers. -/
theorem unmappedWordsAreThoseOfTheFourFamilies : Obligations.UnmappedWordsAreThoseOfTheFourFamilies := by
  rintro w _ _ _ rfl rfl rfl
  rw [decode_error_iff, decode0_error_iff, decode8_error_iff, decodeE_error_iff, decodeF_error_iff, toNat_fieldN,
    toNat_fieldKk, ← toNat_fieldOp]
  simp only [BitVec.toNat_eq]
  rfl

/-! ## Words written out (R113) -/

/-- Settles O4: the decoder runs on each word. -/
theorem spelledWordsDecode : Obligations.SpelledWordsDecode :=
  ⟨rfl, rfl, rfl, rfl, rfl, rfl, rfl, rfl, rfl, rfl, rfl, rfl, rfl, rfl, rfl, rfl, rfl, rfl⟩

end Sys2Proof
end
